-- ==== Sys2Proof/Word.lean ====
section
/-! DEFINITION. The widths of the data the block handles. -/

namespace Sys2Proof

/-- One datum of the block: an unsigned 8-bit value (00_scope.md R7). -/
abbrev Byte := BitVec 8

/-- A command word on the port `cw` (30_encoding.md R80). -/
abbrev Word := BitVec 16

/-- The port `arg_baud` (30_encoding.md R85). -/
abbrev Baud := BitVec 32

/-- The port `now_ms` and the field `last_rx_ms` (00_scope.md R8, 92_eei_decisions.md D15). -/
abbrev Millis := BitVec 32

end Sys2Proof
end

