-- ==== Sys2Proof/Syntax.lean ====
section
/-! DEFINITION. The CTRL operations, one constructor per row of spec/opcode_table.json (30_encoding.md R81), and the
assembler's lines (R90 to R92). -/

namespace Sys2Proof

/-- A CTRL operation as its command word gives it. Operands that travel on `arg_baud` and `arg_bytes` are not in the
word (R80, R85): the meanings read them from the ports the state holds. -/
inductive Instr where
  /-- INIT, `initialize` (R122). -/
  | init
  /-- TDOWN, `teardown` (R124). -/
  | tdown
  /-- POP, `nextByte` (R117). -/
  | pop
  /-- PEEK, `peekByteAt`; `off` is `cw[7:0]` (R119). -/
  | peek (off : Byte)
  /-- FLUSH, `resetReceiveQueue` (R121). -/
  | flush
  /-- STAT, the status read-out (R128). -/
  | stat
  /-- SENDB, `sendBytes` (R126). -/
  | sendb
  /-- PARSE, `tryParse` with `validate` (R161 to R167). -/
  | parse
  /-- SEND, `send`; `cmd` is `cw[7:0]` (R180). -/
  | send (cmd : Byte)
deriving DecidableEq, Repr

/-- A line of the assembler (R90), of a pseudo-operation (R91) or of an environment step (R92). -/
inductive AsmLine where
  | init (baud : Baud)
  | tdown
  | pop
  | peek (off : Byte)
  | flush
  | stat
  | sendb (bytes : List Byte)
  | parse
  | send (cmd : Byte) (bytes : List Byte)
  /-- `SENDS #cmd, "text"` (R91). -/
  | sends (cmd : Byte) (text : List Byte)
  /-- `LINE b [FE] [PE]` (R92). -/
  | line (b : Byte) (fe pe : Bool)
  /-- `DRAIN @t` (R92). -/
  | drain (t : Millis)
  /-- `RX b [FE] [PE] @t` (R92). -/
  | rx (b : Byte) (fe pe : Bool) (t : Millis)
  /-- `RESET` (R92). -/
  | reset
deriving DecidableEq, Repr

end Sys2Proof
end

