-- ==== Sys2Proof/WellFormed.lean ====
section
/-! DEFINITION. The checks on what is presented to the block. Every `Instr` is well formed by its types (`imm8` is a
byte, R82); what can be ill formed is what stands on the operand ports, and a line of the assembler. -/

namespace Sys2Proof

/-- MAX_ARG, the most bytes the port `arg_bytes` carries (R85; D4). -/
def maxArg : Nat := 255

/-- MAX_PAYLOAD, the most payload bytes SEND accepts (R9, R184; D18). -/
def maxPayload : Nat := 253

/-- The port `arg_bytes` carries 0 to 255 bytes (R85). -/
def argBytesWellFormed (bytes : List Byte) : Bool := decide (bytes.length ≤ maxArg)

/-- The text of SENDS: 0 to 252 bytes, none of them `0x00` (R91, R185). -/
def textWellFormed (text : List Byte) : Bool := decide (text.length ≤ 252) && text.all (· ≠ 0#8)

/-- A line of the assembler can be written: its byte list fits the port (R85, R90), its text is one (R91). -/
def AsmLine.wellFormed : AsmLine → Bool
  | .sendb bytes => argBytesWellFormed bytes
  | .send _ bytes => argBytesWellFormed bytes
  | .sends _ text => textWellFormed text
  | .init _ | .tdown | .pop | .peek _ | .flush | .stat | .parse => true
  | .line _ _ _ | .drain _ | .rx _ _ _ _ | .reset => true

end Sys2Proof
end

