-- ==== Sys2Proof/Decode.lean ====
section
/-! DEFINITION. The command word's decoder, total over all 65536 words (30_encoding.md R84), and its encoder. -/

namespace Sys2Proof

/-- Why a command word is illegal (R84). -/
inductive IllegalWord where
  /-- `cw[15:12]` is `0x0` or in `0xA..0xF`. -/
  | reservedOp (op : BitVec 4)
  /-- `cw[11:8]` is not `0000` (R83). -/
  | reservedBits (rsv : BitVec 4)
  /-- `cw[7:0]` is not `0x00` in an operation other than PEEK and SEND (R82). -/
  | operandBits (imm8 : Byte)
deriving DecidableEq, Repr

/-- `cw[15:12]`, the operation code (R80). -/
def opField (w : Word) : BitVec 4 := w.extractLsb' 12 4

/-- `cw[11:8]`, reserved (R80). -/
def rsvField (w : Word) : BitVec 4 := w.extractLsb' 8 4

/-- `cw[7:0]`, the 8-bit operand (R80, R82). -/
def imm8Field (w : Word) : Byte := w.extractLsb' 0 8

/-- The operations whose `imm8` must be `0x00` (R82). -/
def withoutOperand (imm8 : Byte) (i : Instr) : Except IllegalWord Instr :=
  if imm8 = 0#8 then .ok i else .error (.operandBits imm8)

/-- The operation an operation code selects (R81), given the operand field. -/
def decodeOp (op : BitVec 4) (imm8 : Byte) : Except IllegalWord Instr :=
  if op = 0x1#4 then withoutOperand imm8 .init
  else if op = 0x2#4 then withoutOperand imm8 .tdown
  else if op = 0x3#4 then withoutOperand imm8 .pop
  else if op = 0x4#4 then .ok (.peek imm8)
  else if op = 0x5#4 then withoutOperand imm8 .flush
  else if op = 0x6#4 then withoutOperand imm8 .stat
  else if op = 0x7#4 then withoutOperand imm8 .sendb
  else if op = 0x8#4 then withoutOperand imm8 .parse
  else if op = 0x9#4 then .ok (.send imm8)
  else .error (.reservedOp op)

/-- The decoder (R80 to R84): a legal word's operation, or why the word is illegal. -/
def decode (w : Word) : Except IllegalWord Instr :=
  if rsvField w = 0#4 then decodeOp (opField w) (imm8Field w)
  else .error (.reservedBits (rsvField w))

/-- ILLEGAL(cw) as R84 lists its cases, written apart from the decoder. -/
def illegal (w : Word) : Bool :=
  opField w == 0x0#4 || decide (0xA#4 ≤ opField w) || rsvField w != 0#4
    || (imm8Field w != 0x00#8 && opField w != 0x4#4 && opField w != 0x9#4)

/-- The operation code of an operation (R81). -/
def opcodeOf : Instr → BitVec 4
  | .init => 0x1#4
  | .tdown => 0x2#4
  | .pop => 0x3#4
  | .peek _ => 0x4#4
  | .flush => 0x5#4
  | .stat => 0x6#4
  | .sendb => 0x7#4
  | .parse => 0x8#4
  | .send _ => 0x9#4

/-- The operand field of an operation (R82). -/
def operandOf : Instr → Byte
  | .peek off => off
  | .send cmd => cmd
  | .init | .tdown | .pop | .flush | .stat | .sendb | .parse => 0x00#8

/-- The encoder: `op`, four reserved zeros, `imm8` (R80). -/
def encode (i : Instr) : Word := opcodeOf i ++ (0#4 ++ operandOf i)

/-- The host's reading of an opcode-table row: the word whose bits are `w`, bit 0 its least significant. A command
word is 16 bits and one word long (R80), so a number that needs more bits is no command word. -/
def decodeTableWord (nbits w : Nat) : Option Instr :=
  if w % 2 ^ nbits < 2 ^ 16 then (decode (BitVec.ofNat 16 (w % 2 ^ nbits))).toOption else none

end Sys2Proof
end

