-- ==== Sys2Proof/Config.lean ====
section
/-! DEFINITION. What an implementation fixes (the OPEN parameters of 00_scope.md section 4) and the free values.
Each is opaque and has no body: nothing in Lean can evaluate it, so a theorem about it holds whatever it is. -/

namespace Sys2Proof

/-- N - 1, where N is the capacity of the circular buffer; any of 0 to 65534 (R3; D8, D34). Log entry 3. -/
opaque Config.capacityLessOne : Fin 65535

/-- The capacity N of the circular receive buffer, `1 <= N <= 65535` (R2, R3). Log entry 3. -/
def Config.capacity : Nat := Config.capacityLessOne.val + 1

/-- HW_RX_DEPTH - 1 (R4; D13). Log entry 3. -/
opaque Config.hwRxDepthLessOne : Nat

/-- HW_RX_DEPTH, the number of records the peripheral holds, at least 1 (R4). Log entry 3. -/
def Config.hwRxDepth : Nat := Config.hwRxDepthLessOne + 1

/-- BRG_OF, from a baud-rate request to a divisor (R5; D16). Log entry 4. -/
opaque Config.brgOf : Baud → BitVec 16

/-- WIRE_MODE, an opaque configuration value that no rule reads (R6; D17), so neither does the model. Log entry 4. -/
opaque Config.wireMode : Nat

/-- The n-th `draw()`: a free byte chosen by the environment, under no law (00_scope.md section 6, R30). Log entry 5. -/
opaque Config.draw : Nat → Byte

/-- What STAT's 16-bit field shows for a natural that does not fit 16 bits: the spec states no value. Log entry 8. -/
opaque Config.over16 : Nat → BitVec 16

end Sys2Proof
end

