-- ==== Sys2Proof/Machine/State.lean ====
section
/-! DEFINITION. The state of the block as plain data (10_state.md R20 to R42), the result records, the events of the
environment, the reasons to stop, and the state after reset. -/

namespace Sys2Proof.Machine

/-- The lifecycle of the serial device (R23). -/
inductive Mode where
  | uninit
  | ready
  | tornDown
deriving DecidableEq, Repr

/-- The sticky fault record (R24, R201). These are the SPEC's faults: raising one is a next state of the model. -/
inductive FaultCode where
  /-- NONE -/
  | noFault
  | illegalOp
  | notReady
  | tornDown
  | reinit
  | argLength
deriving DecidableEq, Repr

/-- One received record: the byte, its framing-error flag, its parity-error flag (R32). -/
structure RxRecord where
  b : Byte
  fe : Bool
  pe : Bool
deriving DecidableEq, Repr

/-- The storage `Q` (R30, R60): (index, byte) pairs, indices strictly rising. An index that is not listed is `unset`. -/
abbrev Memory := List Host.Cell

/-- The parameters a model takes as arguments (00_scope.md section 4), carried as data that no step writes: the
capacity N (R2, R3) and HW_RX_DEPTH (R4). DESIGN CHOICE, log entry 3. -/
structure Params where
  capacity : Nat
  hwRxDepth : Nat
deriving DecidableEq, Repr

/-- The STATUS record, in the order of R42. `mode` and `fault` hold the encodings of R23 and R24. -/
structure StatusRecord where
  mode : BitVec 2
  fault : BitVec 3
  bound : Bool
  moduleEn : Bool
  rxEn : Bool
  txEn : Bool
  oerr : Bool
  hwLevel : BitVec 16
  count : BitVec 16
  rd : BitVec 16
  wr : BitVec 16
  lastRxMs : BitVec 32
  brg : BitVec 16
deriving DecidableEq, Repr

/-- The status tag of a PACKET (R36). -/
inductive ParseStatus where
  | incomplete
  | ok
  | bad
deriving DecidableEq, Repr

/-- What a PACKET whose status is not INCOMPLETE also carries (R36, R167). -/
structure FrameFields where
  cmd : Byte
  k : Byte
  payload : List Byte
  chk : Byte
deriving DecidableEq, Repr

/-- A PACKET record: INCOMPLETE carries no other field (R36). -/
inductive Packet where
  | incomplete
  | ok (f : FrameFields)
  | bad (f : FrameFields)
deriving DecidableEq, Repr

/-- The result records (R36). -/
inductive Result where
  | ack
  | byte (data : Byte) (empty : Bool)
  | status (r : StatusRecord)
  | packet (p : Packet)
  /-- FAULT(code), the code in the encoding of R24. -/
  | fault (code : BitVec 3)
  | refused
deriving DecidableEq, Repr

/-- One event of the environment: a step of exactly one agent with the inputs it samples (R10, R38, R39), or the
physical reset (R230). Log entry 1. -/
inductive Event where
  /-- A LINE step delivering one record (R110). -/
  | line (r : RxRecord)
  /-- A DRAIN step with the `now_ms` it samples (R112). -/
  | drain (nowMs : Millis)
  /-- A CTRL step: the word on `cw` and what the operand ports carry (R80, R85, R205). -/
  | ctrl (cw : Word) (argBaud : Baud) (argBytes : List Byte)
  /-- The event on the port `reset` (R230). -/
  | reset
deriving DecidableEq, Repr

/-- The state: the block's fields (R20), then the model's own (parameters, ports and the environment's schedule). -/
structure State where
  /-- `mode` (R23) -/
  mode : Mode
  /-- `fault` (R24) -/
  fault : FaultCode
  /-- `bound` (R25) -/
  bound : Bool
  /-- `module_en` (R25) -/
  moduleEn : Bool
  /-- `rx_en` (R25) -/
  rxEn : Bool
  /-- `tx_en` (R25) -/
  txEn : Bool
  /-- `brg` (R26) -/
  brg : BitVec 16
  /-- `hw_rx`, oldest first (R32) -/
  hwRx : List RxRecord
  /-- `oerr` (R33) -/
  oerr : Bool
  /-- `Q[0..N-1]` (R30) -/
  q : Memory
  /-- `rd` (R28) -/
  rd : Nat
  /-- `wr` (R28) -/
  wr : Nat
  /-- `count` (R27) -/
  count : Nat
  /-- `last_rx_ms` (R31) -/
  lastRxMs : Millis
  /-- `tx_out` (R35) -/
  txOut : List Byte
  /-- The model's own: the parameters. Log entry 3. -/
  params : Params
  /-- The model's own: what the port `arg_baud` carries. Log entry 7. -/
  argBaud : Baud
  /-- The model's own: what the port `arg_bytes` carries. Log entry 7. -/
  argBytes : List Byte
  /-- The model's own: what the port `result` has delivered, oldest first. Log entry 6. -/
  results : List Result
  /-- The model's own: how many draws have been taken. Log entry 5. -/
  draws : Nat
  /-- The model's own: the environment's events, in the order they happen. Log entry 1. -/
  schedule : List Event
deriving DecidableEq, Repr

/-- Why the MODEL stops. The spec's own faults are not here: they are next states (log entry 10). -/
inductive Fault where
  /-- Raised by POP, PEEK, PARSE and DRAIN when a cursor lies outside `[0, N)`: the storage has no such cell (R60,
  R65), and no run reaches such a state (R28). Safe. Log entry 9. -/
  | cellOutOfRange
  /-- Raised by a CTRL step whose event puts more than 255 bytes on `arg_bytes`, which the port cannot carry (R85).
  Safe. Log entry 7. -/
  | argPortOverflow
deriving DecidableEq, Repr

/-- Why the model gives an instruction no meaning. -/
inductive Refusal where
  /-- An instruction without a meaning, by its mnemonic. No arm of `exec` raises it: every operation has its meaning.
  (The spec's REFUSED is a result record, so a next state.) Safe. -/
  | notModelled (mnemonic : String)
deriving DecidableEq, Repr

/-- The state after reset (10_state.md section 6, R231). The model's own fields: the parameters are the opaque
constants of Config; nothing presented, delivered, drawn or scheduled yet (DESIGN CHOICE, log entries 1, 5, 6, 7). -/
def State.reset : State where
  mode := .uninit
  fault := .noFault
  bound := false
  moduleEn := false
  rxEn := false
  txEn := false
  brg := 0#16
  hwRx := []
  oerr := false
  q := []
  rd := 0
  wr := 0
  count := 0
  lastRxMs := 0#32
  txOut := []
  params := ⟨Config.capacity, Config.hwRxDepth⟩
  argBaud := 0#32
  argBytes := []
  results := []
  draws := 0
  schedule := []

end Sys2Proof.Machine
end

