-- ==== Sys2Proof/Machine/Operands.lean ====
section
/-! DEFINITION. Operand forms, the fields of result records as numbers, and the check-byte arithmetic. -/

namespace Sys2Proof.Machine

/-- `mode` as STAT reports it (R23). -/
def Mode.code : Mode → BitVec 2
  | .uninit => 0#2
  | .ready => 1#2
  | .tornDown => 2#2

/-- `fault` as STAT and FAULT report it (R24). -/
def FaultCode.code : FaultCode → BitVec 3
  | .noFault => 0#3
  | .illegalOp => 1#3
  | .notReady => 2#3
  | .tornDown => 3#3
  | .reinit => 4#3
  | .argLength => 5#3

/-- The status tag as a number (R36). -/
def ParseStatus.code : ParseStatus → Nat
  | .incomplete => 0
  | .ok => 1
  | .bad => 2

/-- The status tag of a PACKET (R36). -/
def Packet.tag : Packet → ParseStatus
  | .incomplete => .incomplete
  | .ok _ => .ok
  | .bad _ => .bad

/-- A natural on a 16-bit field of STATUS (R42): its value where it fits; the spec states no value for a natural that
does not fit (`hw_level` has no upper bound, R4), so there the free value. Log entry 8. -/
def bits16 (n : Nat) : BitVec 16 := if n < 2 ^ 16 then BitVec.ofNat 16 n else Config.over16 n

/-- A cursor's advance, `(x + 1) mod N` (R28, R129). -/
def advance (s : State) (x : Nat) : Nat := (x + 1) % s.params.capacity

/-- PEEK's cell, `(rd + off) mod N`, the offset zero-extended (R82, R119, R129). -/
def peekIndex (s : State) (off : Byte) : Nat := (s.rd + off.toNat) % s.params.capacity

/-- XOR(s), the fold of a byte sequence, `0x00` for the empty one (00_scope.md section 6). -/
def xorAll : List Byte → Byte
  | [] => 0x00#8
  | b :: bs => b ^^^ xorAll bs

/-- The payload length, the length byte less the control overhead of 2 (R164). -/
def payloadLength (lb : Byte) : Byte := lb - 2#8

/-- The payload SEND transmits: the data, or one null byte for none (R181). -/
def sendPayload (d : List Byte) : List Byte := if d.length = 0 then [0x00#8] else d

/-- The declared length `L = |p| + 2` of a transmitted frame (R180). -/
def frameLength (p : List Byte) : Byte := BitVec.ofNat 8 (p.length + 2)

/-- The frame SEND transmits, `[cmd, L] ++ p ++ [c]` with `c = cmd ^ L ^ XOR(p)` (R180, R182). -/
def sendFrame (cmd : Byte) (d : List Byte) : List Byte :=
  [cmd, frameLength (sendPayload d)] ++ sendPayload d
    ++ [cmd ^^^ frameLength (sendPayload d) ^^^ xorAll (sendPayload d)]

/-- The data SENDS forwards to SEND: the text and its terminator (R91, R185). -/
def sendsData (text : List Byte) : List Byte := text ++ [0x00#8]

end Sys2Proof.Machine
end

