-- ==== Sys2Proof/Machine/Flags.lean ====
section
/-! DEFINITION. The conditions and flag-like values of the block (10_state.md R37), each written once. -/

namespace Sys2Proof.Machine

/-- The block is frozen (R41). -/
def frozen (s : State) : Bool := s.fault != .noFault

/-- The peripheral's "data available" indication (R34). -/
def dataAvailable (s : State) : Bool := decide (0 < s.hwRx.length)

/-- LINE's first guard, negated: the receiver takes records (R110). -/
def lineListening (s : State) : Bool :=
  s.fault == .noFault && s.mode == .ready && s.moduleEn && s.rxEn

/-- The peripheral has no room for another record (R110). -/
def peripheralFull (s : State) : Bool := s.hwRx.length == s.params.hwRxDepth

/-- DRAIN has a step (R111). -/
def drainEnabled (s : State) : Bool := s.fault == .noFault && s.mode == .ready && dataAvailable s

/-- The record carries neither error flag (R112, R114). -/
def recordClean (r : RxRecord) : Bool := !r.fe && !r.pe

/-- The circular buffer has room: `count < N` (R116; 90_conflicts.md C1). -/
def bufferHasRoom (s : State) : Bool := decide (s.count < s.params.capacity)

/-- VALIDATE (R170): the XOR of the command, the length, the payload and the check byte is zero. -/
def validate (cmd k : Byte) (p : List Byte) (chk : Byte) : Bool :=
  cmd ^^^ (k + 2#8) ^^^ xorAll p ^^^ chk == 0x00#8

end Sys2Proof.Machine
end

