-- ==== Sys2Proof/Machine/Ops.lean ====
section
/-! DEFINITION. The named operations over the storage and the state that the meanings share: the storage's reads and
writes, the ports, raising a fault and the reset that leaves it, and the common checks of a CTRL operation. -/

namespace Sys2Proof.Machine

/-- The three outcomes of a step of this block. -/
abbrev StepOutcome := Host.Outcome State Fault Refusal

/-! ## Storage -/

/-- What a cell that no append has written since reset holds: `unset` (R30). Log entry 11. -/
def Memory.unlisted : Option Byte := none

/-- The contents of a cell: a byte, or `none` for `unset` (R30). -/
def Memory.read : Memory → Nat → Option Byte
  | [], _ => Memory.unlisted
  | (a, b) :: m, i => if a = i then some b else Memory.read m i

/-- Writing a byte to a cell, in the canonical form. -/
def Memory.write : Memory → Nat → Byte → Memory
  | [], i, v => [(i, v)]
  | (a, b) :: m, i, v =>
    if i < a then (i, v) :: (a, b) :: m
    else if i = a then (i, v) :: m
    else (a, b) :: Memory.write m i v

/-- The canonical form: indices strictly rising. (No entry can equal `unset`, since an entry is a byte.) -/
def Memory.wf : Memory → Bool
  | [] => true
  | [_] => true
  | (a, _) :: (c, d) :: m => decide (a < c) && Memory.wf ((c, d) :: m)

/-- A draw has been taken. -/
def State.countDraw (s : State) : State := { s with draws := s.draws + 1 }

/-- `Q[i]` (00_scope.md section 6, R30): the byte read and the state after; an `unset` cell reads as a fresh
`draw()`; `none` where the storage has no cell `i` (R65). Log entries 5 and 9. -/
def readCell (s : State) (i : Nat) : Option (Byte × State) :=
  if i < s.params.capacity then
    match s.q.read i with
    | some b => some (b, s)
    | none => some (Config.draw s.draws, s.countDraw)
  else none

/-- `Q[i] <- v` (00_scope.md section 6); `none` where the storage has no cell `i` (R65). Log entry 9. -/
def writeCell (s : State) (i : Nat) (v : Byte) : Option State :=
  if i < s.params.capacity then some { s with q := s.q.write i v } else none

/-- The end of an operation on the storage: a cell that does not exist stops the machine. Log entry 9. -/
def orCellFault : Option State → StepOutcome
  | some s => .next s
  | none => .fault .cellOutOfRange

/-! ## Ports -/

/-- `return r`: one result record on the port `result` (R36). -/
def State.deliver (s : State) (r : Result) : State := { s with results := s.results ++ [r] }

/-- The operand ports carry these values for the operation presented (R38, R85). -/
def State.present (s : State) (baud : Baud) (bytes : List Byte) : State :=
  { s with argBaud := baud, argBytes := bytes }

/-- Bytes written to the transmit register, in order (R35, R72, R126). -/
def State.transmit (s : State) (bytes : List Byte) : State := { s with txOut := s.txOut ++ bytes }

/-! ## The queue -/

/-- `rd <- 0; wr <- 0; count <- 0`: INIT and FLUSH (R121, R122). -/
def State.emptyQueue (s : State) : State := { s with rd := 0, wr := 0, count := 0 }

/-- The oldest byte consumed: `rd` advances, `count` decrements, the cell keeps its byte (R117). -/
def State.consumeOne (s : State) : State := { s with rd := advance s s.rd, count := s.count - 1 }

/-- A byte appended: `wr` advances, `count` increments, the time is stamped (R112, R115). -/
def State.appendOne (s : State) (nowMs : Millis) : State :=
  { s with wr := advance s s.wr, count := s.count + 1, lastRxMs := nowMs }

/-- The head record of `hw_rx` read by DRAIN: it leaves the peripheral and `oerr` is cleared (R64, R112, R113). -/
def State.takeRecord (s : State) (rest : List RxRecord) : State := { s with hwRx := rest, oerr := false }

/-- POP's data, its `empty` flag and the state after (R117, R118). -/
def popByte (s : State) : Option (Byte × Bool × State) :=
  if s.count = 0 then some (0x00#8, true, s)
  else
    match readCell s s.rd with
    | some (b, s') => some (b, false, s'.consumeOne)
    | none => none

/-- POPZ (R160): POP seen as a byte. -/
def popZero (s : State) : Option (Byte × State) :=
  match popByte s with
  | some (b, _, s') => some (b, s')
  | none => none

/-- `k` POPZs in order (R165). -/
def popMany : Nat → State → Option (List Byte × State)
  | 0, s => some ([], s)
  | k + 1, s =>
    match popZero s with
    | none => none
    | some (b, s1) =>
      match popMany k s1 with
      | none => none
      | some (bs, s2) => some (b :: bs, s2)

/-! ## Raising a fault, and the reset that leaves it -/

/-- `raise Fault(code)` (R202): nothing changes but `fault`, and FAULT(code) is returned. Log entry 10. -/
def State.raise (s : State) (code : FaultCode) : State :=
  ({ s with fault := code } : State).deliver (.fault code.code)

/-- A refused operation (R203): REFUSED is returned and nothing changes. Log entry 10. -/
def State.refuse (s : State) : State := s.deliver .refused

/-- The physical reset (R230, R231), the only way out of a fault (R208): every field of the block at its reset value.
The parameters, the ports and the rest of the schedule are not the block's, and stay. Log entry 14. -/
def State.physicalReset (s : State) : State :=
  { State.reset with
    params := s.params, argBaud := s.argBaud, argBytes := s.argBytes, results := s.results, draws := s.draws,
    schedule := s.schedule }

/-! ## The common checks of a CTRL operation -/

/-- What the checks of R205 decide about a legal word. -/
inductive Admission where
  | run
  | raise (code : FaultCode)
  | refuse
deriving DecidableEq, Repr

/-- The checks of R205 for a word that decodes to `i`, in the rule's order; the first that applies decides. -/
def admission (i : Instr) (s : State) : Admission :=
  if frozen s then (if i = .stat then .run else .refuse)
  else if i = .stat then .run
  else if i = .init ∧ s.mode = .ready then .raise .reinit
  else if i ≠ .init ∧ s.mode = .uninit then .raise .notReady
  else if s.mode = .tornDown then .raise .tornDown
  else
    match i with
    | .send _ => if maxPayload < s.argBytes.length then .raise .argLength else .run
    | .init | .tdown | .pop | .peek _ | .flush | .stat | .sendb | .parse => .run

/-- An operation under the common checks (R205): its own effect only where they pass. -/
def perform (i : Instr) (s : State) (body : State → StepOutcome) : StepOutcome :=
  match admission i s with
  | .run => body s
  | .raise code => .next (s.raise code)
  | .refuse => .next s.refuse

/-- What an illegal word does (R84, R203, R205). -/
def illegalWord (s : State) : State := if frozen s then s.refuse else s.raise .illegalOp

end Sys2Proof.Machine
end

