-- ==== Sys2Proof/Machine/Codec.lean ====
section
/-! DEFINITION. The packet codec operations PARSE and SEND (41_codec.md). PARSE follows the procedure word for word
(90_conflicts.md C2): it waits for exactly `L` bytes and consumes `L + 1`, the last being the zero-fill. -/

namespace Sys2Proof.Machine

/-- PARSE, parts 3 to 7 (R163 to R167): the frame is consumed and validated. -/
def consumeFrame (s : State) : Option (Packet × State) :=
  match popZero s with
  | none => none
  | some (cmd, s1) =>
    match popZero s1 with
    | none => none
    | some (lb, s2) =>
      match popMany (payloadLength lb).toNat s2 with
      | none => none
      | some (p, s3) =>
        match popZero s3 with
        | none => none
        | some (chk, s4) =>
          some (if validate cmd (payloadLength lb) p chk then .ok ⟨cmd, payloadLength lb, p, chk⟩
            else .bad ⟨cmd, payloadLength lb, p, chk⟩, s4)

/-- PARSE (R161 to R167): the two-byte guard, the exact-length guard, then the frame. -/
def parseFrame (s : State) : Option (Packet × State) :=
  if s.count < 2 then some (.incomplete, s)
  else
    match readCell s (peekIndex s 1#8) with
    | none => none
    | some (len, s1) => if s1.count = len.toNat then consumeFrame s1 else some (.incomplete, s1)

/-- PARSE (R161 to R173). -/
def execParse (s : State) : StepOutcome :=
  perform .parse s fun s =>
    orCellFault ((parseFrame s).map fun (p, s') => s'.deliver (.packet p))

/-- SEND (R180 to R184). -/
def execSend (cmd : Byte) (s : State) : StepOutcome :=
  perform (.send cmd) s fun s => .next ((s.transmit (sendFrame cmd s.argBytes)).deliver .ack)

end Sys2Proof.Machine
end

