-- ==== Sys2Proof/Machine/Transport.lean ====
section
/-! DEFINITION. The serial transport operations INIT, TDOWN, POP, PEEK, FLUSH, STAT and SENDB (40_transport.md). -/

namespace Sys2Proof.Machine

/-- INIT (R122, R123). -/
def execInit (s : State) : StepOutcome :=
  perform .init s fun s =>
    .next (({ s.emptyQueue with
      bound := true, brg := Config.brgOf s.argBaud, moduleEn := true, rxEn := true, txEn := true, lastRxMs := 0#32,
      mode := .ready } : State).deliver .ack)

/-- TDOWN (R124, R125). -/
def execTdown (s : State) : StepOutcome :=
  perform .tdown s fun s =>
    .next (({ s with
      rxEn := false, txEn := false, moduleEn := false, brg := 0#16, bound := false, mode := .tornDown } :
        State).deliver .ack)

/-- POP (R117, R118). -/
def execPop (s : State) : StepOutcome :=
  perform .pop s fun s =>
    orCellFault ((popByte s).map fun (b, empty, s') => s'.deliver (.byte b empty))

/-- PEEK (R119, R120): no bounds check against `count`; an `unset` cell reads as a draw. -/
def execPeek (off : Byte) (s : State) : StepOutcome :=
  perform (.peek off) s fun s =>
    orCellFault ((readCell s (peekIndex s off)).map fun (b, s') => s'.deliver (.byte b false))

/-- FLUSH (R121). -/
def execFlush (s : State) : StepOutcome :=
  perform .flush s fun s => .next (s.emptyQueue.deliver .ack)

/-- The STATUS record of a state (R42). -/
def statusRecord (s : State) : StatusRecord where
  mode := s.mode.code
  fault := s.fault.code
  bound := s.bound
  moduleEn := s.moduleEn
  rxEn := s.rxEn
  txEn := s.txEn
  oerr := s.oerr
  hwLevel := bits16 s.hwRx.length
  count := bits16 s.count
  rd := bits16 s.rd
  wr := bits16 s.wr
  lastRxMs := s.lastRxMs
  brg := s.brg

/-- STAT (R128): legal in every mode and while frozen (R203, R204). -/
def execStat (s : State) : StepOutcome :=
  perform .stat s fun s => .next (s.deliver (.status (statusRecord s)))

/-- SENDB (R126, R127). -/
def execSendb (s : State) : StepOutcome :=
  perform .sendb s fun s => .next ((s.transmit s.argBytes).deliver .ack)

end Sys2Proof.Machine
end

