-- ==== Sys2Proof/Machine/Dispatch.lean ====
section
/-! DEFINITION. The dispatch of a CTRL operation to its meaning (30_encoding.md R81). -/

namespace Sys2Proof.Machine

def exec (i : Instr) (s : State) : Host.Outcome State Fault Refusal :=
  match i with
  | .init => Sys2Proof.Machine.execInit s
  | .tdown => Sys2Proof.Machine.execTdown s
  | .pop => Sys2Proof.Machine.execPop s
  | .peek off => Sys2Proof.Machine.execPeek off s
  | .flush => Sys2Proof.Machine.execFlush s
  | .stat => Sys2Proof.Machine.execStat s
  | .sendb => Sys2Proof.Machine.execSendb s
  | .parse => Sys2Proof.Machine.execParse s
  | .send cmd => Sys2Proof.Machine.execSend cmd s

end Sys2Proof.Machine
end

