-- ==== Sys2Proof/Machine/Agents.lean ====
section
/-! DEFINITION. The steps of the agents: LINE (R110), DRAIN (R111, R112), CTRL (R205) and the physical reset (R230),
and the lines of the assembler as events (R90 to R92). Each step is atomic (20_memory.md R66). -/

namespace Sys2Proof.Machine

/-- LINE (R110): the record is held, or sets `oerr`, or is lost. -/
def lineStep (r : RxRecord) (s : State) : State :=
  if !lineListening s then s
  else if s.oerr then s
  else if peripheralFull s then { s with oerr := true }
  else { s with hwRx := s.hwRx ++ [r] }

/-- DRAIN's append of a byte it keeps (R112). -/
def drainAppend (nowMs : Millis) (b : Byte) (s : State) : Option State :=
  (writeCell s s.wr b).map fun s' => s'.appendOne nowMs

/-- DRAIN (R112 to R116) where it is enabled; where it is not it has no step, and nothing changes (R111). Log entry 15. -/
def drainStep (nowMs : Millis) (s : State) : StepOutcome :=
  if drainEnabled s then
    match s.hwRx with
    | [] => .next s
    | r :: rest =>
      if bufferHasRoom s && recordClean r then orCellFault (drainAppend nowMs r.b (s.takeRecord rest))
      else .next (s.takeRecord rest)
  else .next s

/-- CTRL_STEP (R205): the word and the operand ports are presented, a legal word is executed, an illegal one is not.
The port `arg_bytes` cannot carry more than 255 bytes (R85). Log entries 7 and 12. -/
def ctrlStep (cw : Word) (baud : Baud) (bytes : List Byte) (s : State) : StepOutcome :=
  if argBytesWellFormed bytes then
    match decode cw with
    | .ok i => exec i (s.present baud bytes)
    | .error _ => .next (illegalWord (s.present baud bytes))
  else .fault .argPortOverflow

/-- One atomic step of the agent the event names (R10, R66), or the physical reset (R230). -/
def agentStep (e : Event) (s : State) : StepOutcome :=
  match e with
  | .line r => .next (lineStep r s)
  | .drain nowMs => drainStep nowMs s
  | .ctrl cw baud bytes => ctrlStep cw baud bytes s
  | .reset => .next s.physicalReset

/-- The events a line of the assembler stands for (R90 to R92), `none` where it is not a line. -/
def asmEvents (l : AsmLine) : Option (List Event) :=
  if l.wellFormed then
    match l with
    | .init baud => some [.ctrl (encode .init) baud []]
    | .tdown => some [.ctrl (encode .tdown) 0#32 []]
    | .pop => some [.ctrl (encode .pop) 0#32 []]
    | .peek off => some [.ctrl (encode (.peek off)) 0#32 []]
    | .flush => some [.ctrl (encode .flush) 0#32 []]
    | .stat => some [.ctrl (encode .stat) 0#32 []]
    | .sendb bytes => some [.ctrl (encode .sendb) 0#32 bytes]
    | .parse => some [.ctrl (encode .parse) 0#32 []]
    | .send cmd bytes => some [.ctrl (encode (.send cmd)) 0#32 bytes]
    | .sends cmd text => some [.ctrl (encode (.send cmd)) 0#32 (sendsData text)]
    | .line b fe pe => some [.line ⟨b, fe, pe⟩]
    | .drain t => some [.drain t]
    | .rx b fe pe t => some [.line ⟨b, fe, pe⟩, .drain t]
    | .reset => some [.reset]
  else none

end Sys2Proof.Machine
end

