-- ==== Sys2Proof/Machine/Step.lean ====
section
/-! DEFINITION. One step of the machine: the next event of the environment's schedule happens (R10, R66). -/

namespace Sys2Proof.Machine

/-- One step: the event at the head of the schedule happens, atomically. With nothing scheduled the block waits
(70_reset_and_hazards.md R232) and nothing changes. Log entry 1. -/
def step (s : State) : Host.Outcome State Fault Refusal :=
  match s.schedule with
  | [] => .next s
  | e :: rest => agentStep e { s with schedule := rest }

/-- The command word whose bits are `w` is the next thing presented on the command port, with what the operand ports
carry. Log entry 2. -/
def State.withFetchWord (s : State) (nbits w : Nat) : State :=
  { s with schedule := .ctrl (BitVec.ofNat 16 (w % 2 ^ nbits)) s.argBaud s.argBytes :: s.schedule }

end Sys2Proof.Machine
end

