-- ==== Sys2Proof/Safety.lean ====
section
/-! DEFINITION. The terms in which claims are made: the invariant of the block's reachable states, the queue as the
consumer sees it, schedules the ports can carry, and fair runs. -/

namespace Sys2Proof.Machine

/-- What the cell `i` places ahead of the read cursor holds: `Q[(rd + i) mod N]` (R40). -/
def State.cellAhead (s : State) (i : Nat) : Option Byte := s.q.read ((s.rd + i) % s.params.capacity)

/-- The buffered bytes, oldest first: `Q[rd], ..., Q[(rd + count - 1) mod N]` (R40). -/
def State.queue (s : State) : List (Option Byte) := (List.range s.count).map s.cellAhead

/-- The block is in READY and no fault has been raised: the state in which every operation but INIT runs (R204). -/
def State.running (s : State) : Prop := s.fault = .noFault ∧ s.mode = .ready

/-- The invariant of the block: what the rules say of every reachable state. -/
structure State.Inv (s : State) : Prop where
  /-- R3 -/
  capacity_pos : 1 ≤ s.params.capacity
  /-- D34 -/
  capacity_le : s.params.capacity ≤ 65535
  /-- R4 -/
  depth_pos : 1 ≤ s.params.hwRxDepth
  /-- The storage is in its canonical form. -/
  mem_wf : s.q.wf = true
  /-- R65: the storage has the cells `[0, N)` and no other. -/
  mem_range : ∀ c ∈ s.q, c.1 < s.params.capacity
  /-- R28 -/
  rd_lt : s.rd < s.params.capacity
  /-- R28 -/
  wr_lt : s.wr < s.params.capacity
  /-- R27, R130 -/
  count_le : s.count ≤ s.params.capacity
  /-- R40 -/
  cursors : s.wr = (s.rd + s.count) % s.params.capacity
  /-- R30: a buffered byte's cell has been written. -/
  queue_set : ∀ i, i < s.count → (s.cellAhead i).isSome = true
  /-- R32 -/
  hw_len : s.hwRx.length ≤ s.params.hwRxDepth
  /-- R33, R110: while the overrun flag is set the peripheral is full. -/
  oerr_full : s.oerr = true → s.hwRx.length = s.params.hwRxDepth
  /-- R25: the four bits are 1 exactly in READY. -/
  bound_iff : s.bound = true ↔ s.mode = .ready
  /-- R25 -/
  module_iff : s.moduleEn = true ↔ s.mode = .ready
  /-- R25 -/
  rx_iff : s.rxEn = true ↔ s.mode = .ready
  /-- R25 -/
  tx_iff : s.txEn = true ↔ s.mode = .ready
  /-- R26: the divisor is 0 outside READY. -/
  brg_off : s.mode ≠ .ready → s.brg = 0#16
  /-- R110, R122, R231: before INIT nothing has been received or sent. -/
  fresh : s.mode = .uninit → s.hwRx = [] ∧ s.oerr = false ∧ s.q = [] ∧ s.rd = 0 ∧ s.wr = 0 ∧ s.count = 0 ∧
    s.lastRxMs = 0#32 ∧ s.txOut = []
  /-- R201: NOT_READY is recorded in UNINIT only. -/
  not_ready : s.fault = .notReady → s.mode = .uninit
  /-- R201: TORN_DOWN is recorded in TORN_DOWN only. -/
  torn_down : s.fault = .tornDown → s.mode = .tornDown
  /-- R201: REINIT is recorded in READY only. -/
  reinit : s.fault = .reinit → s.mode = .ready
  /-- R201: ARG_LENGTH is recorded in READY only. -/
  arg_length : s.fault = .argLength → s.mode = .ready
  /-- R85 -/
  arg_bytes : s.argBytes.length ≤ maxArg

/-- The ports can carry the event (R85). -/
def Event.wellFormed : Event → Bool
  | .ctrl _ _ bytes => argBytesWellFormed bytes
  | .line _ | .drain _ | .reset => true

/-- Every event still scheduled can be carried by the ports. -/
def State.scheduleOk (s : State) : Prop := ∀ e ∈ s.schedule, Event.wellFormed e = true

/-- The fields that are the block's own state (R20), equal in two states. -/
def State.sameBlock (s t : State) : Prop :=
  s.mode = t.mode ∧ s.fault = t.fault ∧ s.bound = t.bound ∧ s.moduleEn = t.moduleEn ∧ s.rxEn = t.rxEn ∧
  s.txEn = t.txEn ∧ s.brg = t.brg ∧ s.hwRx = t.hwRx ∧ s.oerr = t.oerr ∧ s.q = t.q ∧ s.rd = t.rd ∧ s.wr = t.wr ∧
  s.count = t.count ∧ s.lastRxMs = t.lastRxMs ∧ s.txOut = t.txOut

/-- The steps of a schedule, one after another, from a state; `none` where one of them stops. -/
def runEvents : List Event → State → Option State
  | [], s => some s
  | e :: es, s =>
    match agentStep e s with
    | .next s' => runEvents es s'
    | .fault _ => none
    | .refused _ => none

/-- Bit `j` flipped in each of the bytes at the positions listed (R171). -/
def flipBit (j : Nat) (positions : List Nat) (bs : List Byte) : List Byte :=
  positions.foldl (fun acc i => acc.modify i (· ^^^ (1#8 <<< j))) bs

/-- An infinite run: the n-th event takes the n-th state to the next one (R66). -/
def IsRun (events : Nat → Event) (states : Nat → State) : Prop :=
  ∀ n, agentStep (events n) (states n) = .next (states (n + 1))

/-- Fairness of DRAIN (R74): where DRAIN is enabled from some point on, it takes a step from then on. -/
def DrainFair (events : Nat → Event) (states : Nat → State) : Prop :=
  ∀ n, (∀ m, n ≤ m → drainEnabled (states m) = true) → ∃ m, n ≤ m ∧ ∃ t, events m = .drain t

end Sys2Proof.Machine
end

