-- ==== Sys2Proof/Certificates/Slice0/Obligations.lean ====
section
/-! DEFINITION. The statements for the provers: what the numbered rules of spec/ say of the machine. In all of them
`results`, `argBaud`, `argBytes` and `schedule` are the model's rendering of the spec's ports and agents (log entries
1, 6, 7): appending to `results` is returning a record (R36), and a CTRL event first presents its operands (R85). -/

open Sys2Proof Sys2Proof.Machine

/-! ## Encoding -/

/-- R80 to R82: decoding an encoded operation gives it back, with every operand the encoding admits. -/
def Obligations.DecodeInvertsEncode : Prop := ∀ i : Instr, decode (encode i) = .ok i

/-- R84: a word has one meaning, so encoding what a word decodes to gives the word back. -/
def Obligations.EncodeInvertsDecode : Prop := ∀ (w : Word) (i : Instr), decode w = .ok i → encode i = w

/-- R84, with R83: which words are illegal, and what an illegal word does. -/
def Obligations.IllegalWordsRaiseIllegalOp : Prop :=
  ∀ w : Word,
    ((∃ e, decode w = .error e) ↔
      (opField w = 0x0#4 ∨ 0xA#4 ≤ opField w ∨ rsvField w ≠ 0#4 ∨
        (imm8Field w ≠ 0x00#8 ∧ opField w ≠ 0x4#4 ∧ opField w ≠ 0x9#4))) ∧
    ∀ (e : IllegalWord) (baud : Baud) (bytes : List Byte) (s : State), decode w = .error e → bytes.length ≤ 255 →
      (s.fault = .noFault → agentStep (.ctrl w baud bytes) s = .next { s with
        argBaud := baud, argBytes := bytes, fault := .illegalOp, results := s.results ++ [.fault 1#3] }) ∧
      (s.fault ≠ .noFault → agentStep (.ctrl w baud bytes) s = .next { s with
        argBaud := baud, argBytes := bytes, results := s.results ++ [.refused] })

/-- Words written out from the tables decode to the operations they stand for (R81), and two illegal words (R82, R83) are
rejected. That the decoder gives a reason, and which one, is the model's own choice (log entry 12). -/
def Obligations.SampleWordsDecode : Prop :=
  decode 0x1000#16 = .ok .init ∧ decode 0x2000#16 = .ok .tdown ∧ decode 0x3000#16 = .ok .pop ∧
  decode 0x40FF#16 = .ok (.peek 0xFF#8) ∧ decode 0x5000#16 = .ok .flush ∧ decode 0x6000#16 = .ok .stat ∧
  decode 0x7000#16 = .ok .sendb ∧ decode 0x8000#16 = .ok .parse ∧ decode 0x9042#16 = .ok (.send 0x42#8) ∧
  decode 0x4F01#16 = .error (.reservedBits 0xF#4) ∧ decode 0x3001#16 = .error (.operandBits 0x01#8)

/-- R90 and R92: the word and the operands of every line of the assembler, and the events of the environment's lines.
What the ports carry where a line gives no operand is the model's (log entry 18), so it is left open here. -/
def Obligations.AssemblerLinesStandForWords : Prop :=
  (∀ baud, ∃ bytes, asmEvents (.init baud) = some [.ctrl 0x1000#16 baud bytes]) ∧
  (∃ baud bytes, asmEvents .tdown = some [.ctrl 0x2000#16 baud bytes]) ∧
  (∃ baud bytes, asmEvents .pop = some [.ctrl 0x3000#16 baud bytes]) ∧
  (∀ off : Byte, ∃ baud bytes, asmEvents (.peek off) = some [.ctrl (0x4000#16 ||| off.setWidth 16) baud bytes]) ∧
  (∃ baud bytes, asmEvents .flush = some [.ctrl 0x5000#16 baud bytes]) ∧
  (∃ baud bytes, asmEvents .stat = some [.ctrl 0x6000#16 baud bytes]) ∧
  (∀ bs : List Byte, bs.length ≤ 255 → ∃ baud, asmEvents (.sendb bs) = some [.ctrl 0x7000#16 baud bs]) ∧
  (∃ baud bytes, asmEvents .parse = some [.ctrl 0x8000#16 baud bytes]) ∧
  (∀ (cmd : Byte) (bs : List Byte), bs.length ≤ 255 →
    ∃ baud, asmEvents (.send cmd bs) = some [.ctrl (0x9000#16 ||| cmd.setWidth 16) baud bs]) ∧
  (∀ b fe pe, asmEvents (.line b fe pe) = some [.line ⟨b, fe, pe⟩]) ∧
  (∀ t, asmEvents (.drain t) = some [.drain t]) ∧
  (∀ b fe pe t, asmEvents (.rx b fe pe t) = some [.line ⟨b, fe, pe⟩, .drain t]) ∧
  asmEvents .reset = some [.reset]

/-! ## The step -/

/-- The model's own convention (log entry 1): a step is the step of the event at the head of the schedule, and with
nothing scheduled the block waits. -/
def Obligations.StepTakesTheScheduledEvent : Prop :=
  ∀ s : State, (s.schedule = [] → step s = .next s) ∧
    ∀ e rest, s.schedule = e :: rest → step s = agentStep e { s with schedule := rest }

/-- A step runs the decoded instruction: a CTRL event whose word decodes to `i` is `exec i` on the state with the
operand ports presented (R85, R205) and the event gone from the schedule. -/
def Obligations.StepRunsTheDecodedInstruction : Prop :=
  ∀ (s : State) (cw : Word) (baud : Baud) (bytes : List Byte) (rest : List Event) (i : Instr),
    s.schedule = .ctrl cw baud bytes :: rest → bytes.length ≤ 255 → decode cw = .ok i →
    step s = exec i { s with argBaud := baud, argBytes := bytes, schedule := rest }

/-- The model's own stops (log entries 7 and 9): a storage index outside `[0, N)`, and more bytes than `arg_bytes`
can carry. -/
def Obligations.StopsAreTheMissingCellAndThePortWidth : Prop :=
  ∀ s : State,
    (s.running → s.count ≠ 0 → s.params.capacity ≤ s.rd → exec .pop s = .fault .cellOutOfRange) ∧
    (s.running → s.params.capacity = 0 → ∀ off, exec (.peek off) s = .fault .cellOutOfRange) ∧
    (s.running → s.params.capacity = 0 → 2 ≤ s.count → exec .parse s = .fault .cellOutOfRange) ∧
    (∀ r rest now, s.running → s.hwRx = r :: rest → s.count < s.params.capacity → r.fe = false → r.pe = false →
      s.params.capacity ≤ s.wr → agentStep (.drain now) s = .fault .cellOutOfRange) ∧
    ∀ cw baud bytes, 255 < bytes.length → agentStep (.ctrl cw baud bytes) s = .fault .argPortOverflow

/-! ## Reset -/

/-- R231: the state after reset. -/
def Obligations.ResetStateHasTheTableValues : Prop :=
  State.reset.mode = .uninit ∧ State.reset.fault = .noFault ∧ State.reset.bound = false ∧
  State.reset.moduleEn = false ∧ State.reset.rxEn = false ∧ State.reset.txEn = false ∧ State.reset.brg = 0#16 ∧
  State.reset.hwRx = [] ∧ State.reset.oerr = false ∧ (∀ i, State.reset.q.read i = none) ∧ State.reset.rd = 0 ∧
  State.reset.wr = 0 ∧ State.reset.count = 0 ∧ State.reset.lastRxMs = 0#32 ∧ State.reset.txOut = []

/-- The model's own convention (log entry 14): the reset event leaves what is not the block's state as it is: the
parameters, the ports, the draws taken and the rest of the schedule. -/
def Obligations.ResetKeepsTheEnvironment : Prop :=
  ∀ s : State, ∃ t, agentStep .reset s = .next t ∧ t.params = s.params ∧ t.argBaud = s.argBaud ∧
    t.argBytes = s.argBytes ∧ t.results = s.results ∧ t.draws = s.draws ∧ t.schedule = s.schedule

/-- R230: the reset event sets every field of the block to its reset value, and no other event leaves TORN_DOWN or a
frozen state. -/
def Obligations.OnlyResetLeavesTornDownOrFrozen : Prop :=
  (∀ s : State, ∃ t, agentStep .reset s = .next t ∧ t.sameBlock State.reset) ∧
  ∀ (e : Event) (s t : State), agentStep e s = .next t → e ≠ .reset →
    (s.mode = .tornDown → t.mode = .tornDown) ∧ (s.fault ≠ .noFault → t.fault = s.fault)

/-! ## Link control -/

/-- R122 and R123: INIT in each mode of a block that is not frozen. -/
def Obligations.InitConstructsTheDevice : Prop :=
  ∀ s : State, s.fault = .noFault →
    (s.mode = .uninit → exec .init s = .next { s with
      bound := true, brg := Config.brgOf s.argBaud, moduleEn := true, rxEn := true, txEn := true, rd := 0, wr := 0,
      count := 0, lastRxMs := 0#32, mode := .ready, results := s.results ++ [.ack] }) ∧
    (s.mode = .ready → exec .init s = .next { s with fault := .reinit, results := s.results ++ [.fault 4#3] }) ∧
    (s.mode = .tornDown → exec .init s = .next { s with fault := .tornDown, results := s.results ++ [.fault 3#3] })

/-- R122's sentence that the spec derives from R110 and R231: INIT writes neither `hw_rx` nor `oerr`, yet they are empty
and 0 after it, as the queue is. -/
def Obligations.InitLeavesNothingReceived : Prop :=
  ∀ s : State, s.Inv → s.fault = .noFault → s.mode = .uninit →
    ∃ t, exec .init s = .next t ∧ t.mode = .ready ∧ t.hwRx = [] ∧ t.oerr = false ∧ t.queue = []

/-- R124: TDOWN in each mode of a block that is not frozen; after it DRAIN has no step, and records left in `hw_rx` stay
there until reset, through any events. -/
def Obligations.TdownDestroysTheDevice : Prop :=
  (∀ s : State, s.fault = .noFault →
    (s.mode = .ready → exec .tdown s = .next { s with
      rxEn := false, txEn := false, moduleEn := false, brg := 0#16, bound := false, mode := .tornDown,
      results := s.results ++ [.ack] }) ∧
    (s.mode = .uninit → exec .tdown s = .next { s with fault := .notReady, results := s.results ++ [.fault 2#3] }) ∧
    (s.mode = .tornDown → exec .tdown s = .next { s with
      fault := .tornDown, results := s.results ++ [.fault 3#3] })) ∧
  ∀ s : State, s.mode = .tornDown → drainEnabled s = false ∧
    ∀ (es : List Event) (t : State), Event.reset ∉ es → runEvents es s = some t → t.hwRx = s.hwRx

/-- R125: after TDOWN every operation except STAT raises Fault(TORN_DOWN), and only reset leaves TORN_DOWN. -/
def Obligations.TornDownIsIrreversible : Prop :=
  (∀ (i : Instr) (s : State), s.fault = .noFault → s.mode = .tornDown → i ≠ .stat →
    exec i s = .next { s with fault := .tornDown, results := s.results ++ [.fault 3#3] }) ∧
  (∀ s : State, s.mode = .tornDown → ∃ r : StatusRecord, r.mode = 2#2 ∧
    exec .stat s = .next { s with results := s.results ++ [.status r] }) ∧
  ∀ (es : List Event) (s t : State), s.mode = .tornDown → Event.reset ∉ es → runEvents es s = some t →
    t.mode = .tornDown

/-! ## Consumer operations -/

/-- R117 and R118: POP in each mode of a block that is not frozen. -/
def Obligations.PopTakesTheOldestByte : Prop :=
  ∀ s : State, s.fault = .noFault →
    (s.mode = .ready → s.count = 0 →
      exec .pop s = .next { s with results := s.results ++ [.byte 0x00#8 true] }) ∧
    (∀ b, s.mode = .ready → s.count ≠ 0 → s.rd < s.params.capacity → s.q.read s.rd = some b →
      exec .pop s = .next { s with
        rd := (s.rd + 1) % s.params.capacity, count := s.count - 1, results := s.results ++ [.byte b false] }) ∧
    (s.mode = .uninit → exec .pop s = .next { s with fault := .notReady, results := s.results ++ [.fault 2#3] }) ∧
    (s.mode = .tornDown → exec .pop s = .next { s with fault := .tornDown, results := s.results ++ [.fault 3#3] })

/-- R119: PEEK in each mode of a block that is not frozen; an `unset` cell gives some byte and changes nothing of the
block (`draws` counts the draws, log entry 5). -/
def Obligations.PeekLooksAheadWithoutConsuming : Prop :=
  ∀ (s : State) (off : Byte), s.fault = .noFault →
    (∀ b, s.mode = .ready → 0 < s.params.capacity →
      s.q.read ((s.rd + off.toNat) % s.params.capacity) = some b →
      exec (.peek off) s = .next { s with results := s.results ++ [.byte b false] }) ∧
    (s.mode = .ready → 0 < s.params.capacity → s.q.read ((s.rd + off.toNat) % s.params.capacity) = none →
      ∃ b draws, exec (.peek off) s = .next { s with
        draws := draws, results := s.results ++ [.byte b false] }) ∧
    (s.mode = .uninit →
      exec (.peek off) s = .next { s with fault := .notReady, results := s.results ++ [.fault 2#3] }) ∧
    (s.mode = .tornDown →
      exec (.peek off) s = .next { s with fault := .tornDown, results := s.results ++ [.fault 3#3] })

/-- R120 and R129: PEEK's index wraps modulo N, so offsets that agree modulo N give the same outcome, whatever the
count. -/
def Obligations.PeekOffsetWrapsModuloCapacity : Prop :=
  ∀ (s : State) (off off' : Byte), off.toNat % s.params.capacity = off'.toNat % s.params.capacity →
    exec (.peek off) s = exec (.peek off') s

/-- The model's rendering of `draw()` (R30, 00_scope.md section 6; log entry 5): a read of an `unset` cell takes the
next draw, two reads take two draws, and the reset does not start the draws again. The statement holds whatever the
opaque `Config.draw` is. -/
def Obligations.UnsetCellReadsTakeFreshDraws : Prop :=
  (∀ s : State, s.running → s.count ≠ 0 → s.rd < s.params.capacity → s.q.read s.rd = none →
    exec .pop s = .next { s with
      rd := (s.rd + 1) % s.params.capacity, count := s.count - 1, draws := s.draws + 1,
      results := s.results ++ [.byte (Config.draw s.draws) false] }) ∧
  ∀ (s : State) (off : Byte), s.running → 0 < s.params.capacity →
    s.q.read ((s.rd + off.toNat) % s.params.capacity) = none →
    runEvents [.ctrl (encode (.peek off)) 0#32 [], .ctrl (encode (.peek off)) 0#32 []] s = some { s with
      argBaud := 0#32, argBytes := [], draws := s.draws + 2,
      results := s.results ++ [.byte (Config.draw s.draws) false, .byte (Config.draw (s.draws + 1)) false] } ∧
    ∃ t, agentStep .reset s = .next t ∧ t.draws = s.draws

/-- Two sentences the spec marks as derived: in a state that meets the invariant only a PEEK at an offset of at least
`count` can read an unset cell (R30), and the length byte PARSE reads has been written (R162). -/
def Obligations.OnlyPeekBeyondTheCountDraws : Prop :=
  (∀ (e : Event) (s t : State), s.Inv → agentStep e s = .next t → t.draws ≠ s.draws →
    ∃ off baud bytes, e = .ctrl (encode (.peek off)) baud bytes ∧ s.count ≤ off.toNat) ∧
  ∀ s : State, s.Inv → 2 ≤ s.count → ∃ len : Byte, s.q.read ((s.rd + 1) % s.params.capacity) = some len

/-- R121: FLUSH in each mode of a block that is not frozen. -/
def Obligations.FlushEmptiesTheQueue : Prop :=
  ∀ s : State, s.fault = .noFault →
    (s.mode = .ready →
      exec .flush s = .next { s with count := 0, rd := 0, wr := 0, results := s.results ++ [.ack] }) ∧
    (s.mode = .uninit → exec .flush s = .next { s with fault := .notReady, results := s.results ++ [.fault 2#3] }) ∧
    (s.mode = .tornDown →
      exec .flush s = .next { s with fault := .tornDown, results := s.results ++ [.fault 3#3] })

/-- R128 and R42: STAT reports the state and writes none of it, in every mode and while frozen. -/
def Obligations.StatReportsTheState : Prop :=
  ∀ s : State, s.hwRx.length < 65536 → s.count < 65536 → s.rd < 65536 → s.wr < 65536 →
    ∃ r : StatusRecord, exec .stat s = .next { s with results := s.results ++ [.status r] } ∧
      (r.mode = match s.mode with | .uninit => 0#2 | .ready => 1#2 | .tornDown => 2#2) ∧
      (r.fault = match s.fault with
        | .noFault => 0#3 | .illegalOp => 1#3 | .notReady => 2#3 | .tornDown => 3#3 | .reinit => 4#3
        | .argLength => 5#3) ∧
      r.bound = s.bound ∧ r.moduleEn = s.moduleEn ∧ r.rxEn = s.rxEn ∧ r.txEn = s.txEn ∧ r.oerr = s.oerr ∧
      r.hwLevel.toNat = s.hwRx.length ∧ r.count.toNat = s.count ∧ r.rd.toNat = s.rd ∧ r.wr.toNat = s.wr ∧
      r.lastRxMs = s.lastRxMs ∧ r.brg = s.brg

/-- R128 and R204: STAT answers in every state; what a 16-bit field shows of a larger natural is the model's free
value (log entry 8). -/
def Obligations.StatAlwaysAnswers : Prop :=
  ∀ s : State, ∃ r : StatusRecord, exec .stat s = .next { s with results := s.results ++ [.status r] } ∧
    (65536 ≤ s.hwRx.length → r.hwLevel = Config.over16 s.hwRx.length)

/-! ## Transmit -/

/-- R126: SENDB in each mode of a block that is not frozen. -/
def Obligations.SendbTransmitsItsBytes : Prop :=
  ∀ s : State, s.fault = .noFault →
    (s.mode = .ready →
      exec .sendb s = .next { s with txOut := s.txOut ++ s.argBytes, results := s.results ++ [.ack] }) ∧
    (s.mode = .uninit → exec .sendb s = .next { s with fault := .notReady, results := s.results ++ [.fault 2#3] }) ∧
    (s.mode = .tornDown →
      exec .sendb s = .next { s with fault := .tornDown, results := s.results ++ [.fault 3#3] })

/-- R180, R181 and R184: SEND in each mode of a block that is not frozen. -/
def Obligations.SendTransmitsOneFrame : Prop :=
  ∀ (s : State) (cmd : Byte) (p : List Byte) (len : Byte), s.fault = .noFault →
    p = (if s.argBytes = [] then [0x00#8] else s.argBytes) → len = BitVec.ofNat 8 (p.length + 2) →
    (s.mode = .ready → s.argBytes.length ≤ 253 → exec (.send cmd) s = .next { s with
      txOut := s.txOut ++ ([cmd, len] ++ p ++ [cmd ^^^ len ^^^ xorAll p]), results := s.results ++ [.ack] }) ∧
    (s.mode = .ready → 253 < s.argBytes.length →
      exec (.send cmd) s = .next { s with fault := .argLength, results := s.results ++ [.fault 5#3] }) ∧
    (s.mode = .uninit →
      exec (.send cmd) s = .next { s with fault := .notReady, results := s.results ++ [.fault 2#3] }) ∧
    (s.mode = .tornDown →
      exec (.send cmd) s = .next { s with fault := .tornDown, results := s.results ++ [.fault 3#3] })

/-- R87: the bytes of the frame SEND transmits. -/
def Obligations.TransmittedFrameShape : Prop :=
  ∀ (cmd : Byte) (d p : List Byte), d.length ≤ 253 → p = (if d = [] then [0x00#8] else d) →
    1 ≤ p.length ∧ (sendFrame cmd d).length = p.length + 3 ∧
    (sendFrame cmd d)[0]? = some cmd ∧
    (∃ len : Byte, (sendFrame cmd d)[1]? = some len ∧ len.toNat = p.length + 2 ∧
      (sendFrame cmd d)[p.length + 2]? = some (cmd ^^^ len ^^^ xorAll p)) ∧
    ∀ j, j < p.length → (sendFrame cmd d)[j + 2]? = p[j]?

/-- R182's sentence that the spec derives from R180: the XOR of everything a SEND transmits is zero, whatever the data. -/
def Obligations.TransmittedFrameXorsToZero : Prop :=
  ∀ (cmd : Byte) (s t : State), exec (.send cmd) s = .next t → t.fault = .noFault →
    ∃ sent, t.txOut = s.txOut ++ sent ∧ sent.foldl (· ^^^ ·) 0x00#8 = 0x00#8

/-- R185 and R91: SENDS is SEND of the text with its terminator, and a text that holds a null byte or is longer than
252 bytes cannot be written. What `arg_baud` carries for the line is left open. -/
def Obligations.SendsForwardsTheTerminatedText : Prop :=
  (∀ (cmd : Byte) (text : List Byte), text.length ≤ 252 → 0x00#8 ∉ text →
    asmEvents (.sends cmd text) = asmEvents (.send cmd (text ++ [0x00#8])) ∧
    (∃ baud, asmEvents (.sends cmd text) = some [.ctrl (encode (.send cmd)) baud (text ++ [0x00#8])]) ∧
    ∀ (s : State) (baud : Baud), s.running → ∃ len : Byte, len.toNat = text.length + 3 ∧
      agentStep (.ctrl (encode (.send cmd)) baud (text ++ [0x00#8])) s = .next { s with
        argBaud := baud, argBytes := text ++ [0x00#8],
        txOut := s.txOut ++ ([cmd, len] ++ (text ++ [0x00#8]) ++ [cmd ^^^ len ^^^ xorAll (text ++ [0x00#8])]),
        results := s.results ++ [.ack] }) ∧
  ∀ (cmd : Byte) (text : List Byte), (252 < text.length ∨ 0x00#8 ∈ text) → asmEvents (.sends cmd text) = none

/-! ## PARSE -/

/-- R161, R162 and R172: PARSE's two guards, and an INCOMPLETE result writes nothing. -/
def Obligations.ParseWaitsForTheExactLength : Prop :=
  ∀ s : State, s.fault = .noFault →
    (∀ t, s.Inv → exec .parse s = .next t → t.results = s.results ++ [.packet .incomplete] →
      t = { s with results := s.results ++ [.packet .incomplete] }) ∧
    (s.mode = .ready → s.count < 2 →
      exec .parse s = .next { s with results := s.results ++ [.packet .incomplete] }) ∧
    (∀ len : Byte, s.mode = .ready → 2 ≤ s.count → 0 < s.params.capacity →
      s.q.read ((s.rd + 1) % s.params.capacity) = some len → s.count ≠ len.toNat →
      exec .parse s = .next { s with results := s.results ++ [.packet .incomplete] }) ∧
    (s.mode = .uninit → exec .parse s = .next { s with fault := .notReady, results := s.results ++ [.fault 2#3] }) ∧
    (s.mode = .tornDown →
      exec .parse s = .next { s with fault := .tornDown, results := s.results ++ [.fault 3#3] })

/-- R169 and R168: what PARSE accepts, and the state it leaves. -/
def Obligations.ParseConsumesExactlyTheDeclaredFrame : Prop :=
  ∀ (s : State) (bs : List Byte), s.Inv → s.running → s.queue = bs.map some →
    (∀ cmd len payload, bs = cmd :: len :: payload → len.toNat = bs.length →
      exec .parse s = .next { s with
        count := 0, rd := s.wr,
        results := s.results ++ [.packet (if xorAll bs = 0x00#8
          then .ok ⟨cmd, BitVec.ofNat 8 (len.toNat - 2), payload, 0x00#8⟩
          else .bad ⟨cmd, BitVec.ofNat 8 (len.toNat - 2), payload, 0x00#8⟩)] }) ∧
    ((∀ cmd len payload, bs = cmd :: len :: payload → len.toNat ≠ bs.length) →
      exec .parse s = .next { s with results := s.results ++ [.packet .incomplete] })

/-- R186: the round trip that holds, and the one that does not. -/
def Obligations.FrameRoundTrips : Prop :=
  (∀ (s : State) (cmd len x : Byte) (q : List Byte), s.Inv → s.running → q.length ≤ 252 →
    len = BitVec.ofNat 8 (q.length + 3) → x = cmd ^^^ len ^^^ xorAll q →
    s.queue = ([cmd, len] ++ q ++ [x]).map some →
    exec .parse s = .next { s with
      count := 0, rd := s.wr, results := s.results ++ [.packet (.ok ⟨cmd, len - 2#8, q ++ [x], 0x00#8⟩)] }) ∧
  (∀ (s : State) (cmd : Byte) (d : List Byte), s.Inv → s.running → d.length ≤ 253 →
    s.queue = (sendFrame cmd d).map some →
    exec .parse s = .next { s with results := s.results ++ [.packet .incomplete] }) ∧
  ∀ (s : State) (cmd chk : Byte) (d front : List Byte), s.Inv → s.running → d.length ≤ 253 →
    sendFrame cmd d = front ++ [chk] → s.queue = front.map some →
    ∃ t p, exec .parse s = .next t ∧ t.count = 0 ∧ t.results = s.results ++ [.packet p] ∧
      (p.tag = if chk = 0x00#8 then .ok else .bad)

/-- R170: VALIDATE folds the XOR of the command, the length, the payload and the check byte. -/
def Obligations.ValidateIsTheXorFold : Prop :=
  ∀ (cmd k chk : Byte) (p : List Byte),
    validate cmd k p chk = true ↔
      ([cmd, BitVec.ofNat 8 (k.toNat + 2)] ++ p ++ [chk]).foldl (· ^^^ ·) 0x00#8 = 0x00#8

/-- R171: a single flipped bit outside the length byte turns OK into BAD, the same bit flipped in an even number of
bytes is not detected, and a changed length byte gives INCOMPLETE unless the count equals the new value. -/
def Obligations.SingleFlipsAreDetectedEvenFlipsAreNot : Prop :=
  ∀ (s t : State) (bs : List Byte) (j : Nat), s.Inv → s.running → t.Inv → t.running → s.queue = bs.map some → j < 8 →
    (∃ u f, exec .parse s = .next u ∧ u.results = s.results ++ [.packet (.ok f)]) →
    (∀ i, i < bs.length → i ≠ 1 → t.queue = (flipBit j [i] bs).map some →
      ∃ u f, exec .parse t = .next u ∧ u.results = t.results ++ [.packet (.bad f)]) ∧
    (∀ positions : List Nat, positions.Nodup → (∀ i ∈ positions, i < bs.length ∧ i ≠ 1) → Even positions.length →
      t.queue = (flipBit j positions bs).map some →
      ∃ u f, exec .parse t = .next u ∧ u.results = t.results ++ [.packet (.ok f)]) ∧
    ∀ len : Byte, t.queue = (bs.set 1 len).map some → len.toNat ≠ t.count →
      exec .parse t = .next { t with results := t.results ++ [.packet .incomplete] }

/-- R242 and R243: where the head frame can never complete, PARSE answers INCOMPLETE after any events but a POP, a
FLUSH or a reset, for as long as the block runs. -/
def Obligations.StuckParserStaysStuck : Prop :=
  ∀ (s t : State) (len : Byte) (es : List Event), s.Inv → s.running → 2 ≤ s.count →
    s.cellAhead 1 = some len → (len.toNat ≤ 1 ∨ s.params.capacity < len.toNat ∨ len.toNat < s.count) →
    Event.reset ∉ es →
    (∀ cw baud bytes, Event.ctrl cw baud bytes ∈ es → decode cw ≠ .ok .pop ∧ decode cw ≠ .ok .flush) →
    runEvents es s = some t → t.running →
    exec .parse t = .next { t with results := t.results ++ [.packet .incomplete] }

/-- R3: with N = 1 PARSE never completes, and a frame longer than N never does. -/
def Obligations.ParseNeedsCapacityForTheFrame : Prop :=
  ∀ (s t : State) (p : Packet), s.Inv → exec .parse s = .next t → t.results = s.results ++ [.packet p] →
    p ≠ .incomplete → 2 ≤ s.params.capacity ∧
      ∃ len : Byte, s.cellAhead 1 = some len ∧ len.toNat ≤ s.params.capacity

/-! ## LINE and DRAIN -/

/-- R110: LINE, in each of its four cases. -/
def Obligations.LineHoldsOrLosesTheRecord : Prop :=
  ∀ (r : RxRecord) (s : State),
    ((s.fault ≠ .noFault ∨ s.mode ≠ .ready ∨ s.moduleEn = false ∨ s.rxEn = false) →
      agentStep (.line r) s = .next s) ∧
    (s.fault = .noFault → s.mode = .ready → s.moduleEn = true → s.rxEn = true →
      (s.oerr = true → agentStep (.line r) s = .next s) ∧
      (s.oerr = false → s.hwRx.length = s.params.hwRxDepth →
        agentStep (.line r) s = .next { s with oerr := true }) ∧
      (s.oerr = false → s.hwRx.length ≠ s.params.hwRxDepth →
        agentStep (.line r) s = .next { s with hwRx := s.hwRx ++ [r] }))

/-- The model's own convention (log entry 15): where DRAIN has no step (R111) a DRAIN event changes nothing. -/
def Obligations.DrainEventWithoutAStepChangesNothing : Prop :=
  ∀ (now : Millis) (s : State), (s.fault ≠ .noFault ∨ s.mode ≠ .ready ∨ s.hwRx = []) →
    agentStep (.drain now) s = .next s

/-- R111 to R115: where DRAIN has a step, where it appends and where it drops. -/
def Obligations.DrainAppendsOrDropsTheHeadRecord : Prop :=
  ∀ (now : Millis) (s : State),
    (drainEnabled s = true ↔ s.fault = .noFault ∧ s.mode = .ready ∧ s.hwRx ≠ []) ∧
    ∀ b fe pe rest, s.running → s.hwRx = ⟨b, fe, pe⟩ :: rest →
      (s.count < s.params.capacity → fe = false → pe = false → s.wr < s.params.capacity →
        agentStep (.drain now) s = .next { s with
          hwRx := rest, oerr := false, q := s.q.write s.wr b, wr := (s.wr + 1) % s.params.capacity,
          count := s.count + 1, lastRxMs := now }) ∧
      ((s.params.capacity ≤ s.count ∨ fe = true ∨ pe = true) →
        agentStep (.drain now) s = .next { s with hwRx := rest, oerr := false })

/-- R112 through the storage's reads: the cell DRAIN writes holds the byte, every other cell reads as before. -/
def Obligations.DrainWritesOneCell : Prop :=
  ∀ (now : Millis) (s t : State), agentStep (.drain now) s = .next t → t.count ≠ s.count →
    (∃ r rest, s.hwRx = r :: rest ∧ t.q.read s.wr = some r.b) ∧ ∀ a, a ≠ s.wr → t.q.read a = s.q.read a

/-- R116: of bytes arriving with no consumer draining them, the first that fit are kept and the rest are dropped. -/
def Obligations.OverflowKeepsTheFirstBytes : Prop :=
  ∀ (s : State) (arrivals : List (Byte × Millis)), s.Inv → s.running → s.hwRx = [] →
    ∃ t, runEvents (arrivals.flatMap fun a => [.line ⟨a.1, false, false⟩, .drain a.2]) s = some t ∧
      t.queue = s.queue ++ ((arrivals.map Prod.fst).take (s.params.capacity - s.count)).map some ∧
      t.count = min s.params.capacity (s.count + arrivals.length) ∧ t.rd = s.rd ∧ t.results = s.results

/-- R74: in a fair run of a block that stays in READY without a fault, every held record's peripheral is read. -/
def Obligations.FairDrainReadsAHeldRecord : Prop :=
  ∀ (events : Nat → Event) (states : Nat → State) (n : Nat), IsRun events states → DrainFair events states →
    (∀ m, n ≤ m → (states m).running) → (states n).hwRx ≠ [] →
    ∃ m now, n ≤ m ∧ events m = .drain now ∧ drainEnabled (states m) = true

/-! ## Faults -/

/-- R202: raising a fault changes no field but `fault`, transmits nothing and returns the code. -/
def Obligations.FaultsArePrecise : Prop :=
  ∀ (cw : Word) (baud : Baud) (bytes : List Byte) (s t : State),
    agentStep (.ctrl cw baud bytes) s = .next t → s.fault = .noFault → t.fault ≠ .noFault →
    t = { s with
      argBaud := baud, argBytes := bytes, fault := t.fault, results := s.results ++ [.fault t.fault.code] }

/-- R203 and R41: while frozen only a legal STAT is performed, every other word is refused, LINE is lost and DRAIN has no
step. -/
def Obligations.FrozenBlockRefusesAllButStat : Prop :=
  ∀ s : State, s.fault ≠ .noFault →
    (∀ cw baud bytes, bytes.length ≤ 255 → decode cw ≠ .ok .stat →
      agentStep (.ctrl cw baud bytes) s = .next { s with
        argBaud := baud, argBytes := bytes, results := s.results ++ [.refused] }) ∧
    (∀ baud bytes, bytes.length ≤ 255 → agentStep (.ctrl 0x6000#16 baud bytes) s = .next { s with
      argBaud := baud, argBytes := bytes, results := s.results ++ [.status (statusRecord s)] }) ∧
    (∀ r, agentStep (.line r) s = .next s) ∧ drainEnabled s = false ∧
    ∃ t, agentStep .reset s = .next t ∧ t.fault = .noFault

/-- R201, R204 and R205: which fault a CTRL step of a block that is not frozen raises, by the word, the mode and the
payload's length. -/
def Obligations.FaultCodesHaveTheirCauses : Prop :=
  ∀ (cw : Word) (baud : Baud) (bytes : List Byte) (s t : State), s.fault = .noFault →
    agentStep (.ctrl cw baud bytes) s = .next t →
    (t.fault = .illegalOp ↔ ∃ e, decode cw = .error e) ∧
    (t.fault = .notReady ↔ s.mode = .uninit ∧ ∃ i, decode cw = .ok i ∧ i ≠ .init ∧ i ≠ .stat) ∧
    (t.fault = .tornDown ↔ s.mode = .tornDown ∧ ∃ i, decode cw = .ok i ∧ i ≠ .stat) ∧
    (t.fault = .reinit ↔ s.mode = .ready ∧ decode cw = .ok .init) ∧
    (t.fault = .argLength ↔ s.mode = .ready ∧ 253 < bytes.length ∧ ∃ cmd, decode cw = .ok (.send cmd)) ∧
    (FaultCode.noFault.code = 0#3 ∧ FaultCode.illegalOp.code = 1#3 ∧ FaultCode.notReady.code = 2#3 ∧
      FaultCode.tornDown.code = 3#3 ∧ FaultCode.reinit.code = 4#3 ∧ FaultCode.argLength.code = 5#3)

/-- R208: the first fault's code is kept until reset, through any events. -/
def Obligations.FirstFaultIsKeptUntilReset : Prop :=
  ∀ (es : List Event) (s t : State), s.fault ≠ .noFault → Event.reset ∉ es → runEvents es s = some t →
    t.fault = s.fault

/-! ## Whole-machine rules -/

/-- R23: only INIT, TDOWN and reset write `mode`, and its encodings. -/
def Obligations.OnlyInitTdownAndResetWriteMode : Prop :=
  (∀ (e : Event) (s t : State), agentStep e s = .next t → t.mode ≠ s.mode →
    (∃ baud bytes, e = .ctrl 0x1000#16 baud bytes ∧ s.mode = .uninit ∧ t.mode = .ready) ∨
    (∃ baud bytes, e = .ctrl 0x2000#16 baud bytes ∧ s.mode = .ready ∧ t.mode = .tornDown) ∨
    (e = .reset ∧ t.mode = .uninit)) ∧
  Mode.uninit.code = 0#2 ∧ Mode.ready.code = 1#2 ∧ Mode.tornDown.code = 2#2 ∧ ∀ m : Mode, m.code ≠ 3#2

/-- R25, with the divisor of R26: INIT sets the four bits and TDOWN clears them, all together, nothing else but reset
writes them, and LINE takes a record only while `rx_en` is 1. (That `tx_en` is 1 in READY, R25's derived sentence, is in
the invariant.) -/
def Obligations.OnlyInitTdownAndResetWriteTheLinkBits : Prop :=
  (∀ (e : Event) (s t : State), agentStep e s = .next t →
    (t.bound, t.moduleEn, t.rxEn, t.txEn, t.brg) ≠ (s.bound, s.moduleEn, s.rxEn, s.txEn, s.brg) →
    (∃ baud bytes, e = .ctrl 0x1000#16 baud bytes ∧
      t.bound = true ∧ t.moduleEn = true ∧ t.rxEn = true ∧ t.txEn = true ∧ t.brg = Config.brgOf baud) ∨
    ((∃ baud bytes, e = .ctrl 0x2000#16 baud bytes) ∧
      t.bound = false ∧ t.moduleEn = false ∧ t.rxEn = false ∧ t.txEn = false ∧ t.brg = 0#16) ∨
    e = .reset) ∧
  (∀ (i : Instr) (s t : State), exec i s = .next t → t.mode ≠ s.mode →
    (i = .init → t.bound = true ∧ t.moduleEn = true ∧ t.rxEn = true ∧ t.txEn = true) ∧
    (i = .tdown → t.bound = false ∧ t.moduleEn = false ∧ t.rxEn = false ∧ t.txEn = false)) ∧
  ∀ (r : RxRecord) (s : State), s.rxEn = false → agentStep (.line r) s = .next s

/-- R35: `tx_out` is only ever appended to, only by SENDB and SEND, and nothing reads it: another history gives the same
step. -/
def Obligations.TransmitHistoryOnlyGrows : Prop :=
  ∀ (e : Event) (s t : State), agentStep e s = .next t → e ≠ .reset →
    ∃ sent, t.txOut = s.txOut ++ sent ∧
      (sent ≠ [] → ∃ cw baud bytes, e = .ctrl cw baud bytes ∧
        ((decode cw = .ok .sendb ∧ sent = bytes) ∨
          ∃ cmd, decode cw = .ok (.send cmd) ∧ sent = sendFrame cmd bytes)) ∧
      ∀ history, agentStep e { s with txOut := history } = .next { t with txOut := history ++ sent }

/-- R26 and R31, the clause that nothing but STAT reads `brg` and `last_rx_ms`: with other values in them every other
event does the same. -/
def Obligations.OnlyStatReadsTheDivisorAndTheTimestamp : Prop :=
  ∀ (e : Event) (s t : State) (brg : BitVec 16) (time : Millis), agentStep e s = .next t →
    (∀ baud bytes, e ≠ .ctrl 0x6000#16 baud bytes) →
    ∃ u, agentStep e { s with brg := brg, lastRxMs := time } = .next u ∧
      t = { u with brg := t.brg, lastRxMs := t.lastRxMs }

/-- R36: every CTRL operation returns exactly one result record, of a kind its table gives; no other step returns
one. -/
def Obligations.EachOperationReturnsOneResult : Prop :=
  (∀ (cw : Word) (baud : Baud) (bytes : List Byte) (s t : State), agentStep (.ctrl cw baud bytes) s = .next t →
    ∃ r, t.results = s.results ++ [r] ∧
      (match r with
        | .ack => decode cw ∈ [.ok .init, .ok .tdown, .ok .flush, .ok .sendb] ∨ ∃ cmd, decode cw = .ok (.send cmd)
        | .byte data empty => (decode cw = .ok .pop ∧ (empty = true ↔ s.count = 0) ∧ (empty = true → data = 0x00#8)) ∨
            ((∃ off, decode cw = .ok (.peek off)) ∧ empty = false)
        | .status _ => decode cw = .ok .stat
        | .packet p => decode cw = .ok .parse ∧
            ∀ f, (p = .ok f ∨ p = .bad f) → f.payload.length = f.k.toNat
        | .fault code => s.fault = .noFault ∧ t.fault ≠ .noFault ∧ code = t.fault.code
        | .refused => s.fault ≠ .noFault)) ∧
  (∀ (e : Event) (s t : State), agentStep e s = .next t → (∀ cw baud bytes, e ≠ .ctrl cw baud bytes) →
    t.results = s.results) ∧
  ParseStatus.incomplete.code = 0 ∧ ParseStatus.ok.code = 1 ∧ ParseStatus.bad.code = 2

/-- R67, with INIT's writes of R122: who may write the receive buffer, its cursors, its count and the timestamp. -/
def Obligations.OneProducerOneConsumer : Prop :=
  ∀ (e : Event) (s t : State), agentStep e s = .next t →
    (∀ r, e = .line r →
      t.q = s.q ∧ t.rd = s.rd ∧ t.wr = s.wr ∧ t.count = s.count ∧ t.lastRxMs = s.lastRxMs) ∧
    (∀ now, e = .drain now → t.rd = s.rd ∧ (t.count = s.count ∨ t.count = s.count + 1) ∧
      (t.count = s.count → t.q = s.q ∧ t.wr = s.wr ∧ t.lastRxMs = s.lastRxMs)) ∧
    (∀ cw baud bytes, e = .ctrl cw baud bytes → t.q = s.q ∧ t.count ≤ s.count ∧ (t.wr = s.wr ∨ t.wr = 0) ∧
      (t.lastRxMs = s.lastRxMs ∨ (cw = 0x1000#16 ∧ t.lastRxMs = 0#32)))

/-- R2: the capacity (and the peripheral's depth) is fixed for the life of the block. -/
def Obligations.ParametersNeverChange : Prop := ∀ s t : State, step s = .next t → t.params = s.params

/-- The frame of each operation: what it leaves unchanged wherever it answers a next state, every cell of the storage
included (no operation stores to it). -/
def Obligations.OperationsLeaveTheRestUnchanged : Prop :=
  ∀ (i : Instr) (s t : State), exec i s = .next t →
    (∀ a, t.q.read a = s.q.read a) ∧ t.q = s.q ∧ t.hwRx = s.hwRx ∧ t.oerr = s.oerr ∧ t.params = s.params ∧
    t.argBaud = s.argBaud ∧ t.argBytes = s.argBytes ∧ t.schedule = s.schedule ∧
    (i ≠ .init → i ≠ .tdown → t.mode = s.mode ∧ t.bound = s.bound ∧ t.moduleEn = s.moduleEn ∧ t.rxEn = s.rxEn ∧
      t.txEn = s.txEn ∧ t.brg = s.brg) ∧
    (i ≠ .init → t.lastRxMs = s.lastRxMs) ∧
    (i ≠ .init → i ≠ .flush → t.wr = s.wr) ∧
    (i ≠ .init → i ≠ .flush → i ≠ .pop → i ≠ .parse → t.rd = s.rd ∧ t.count = s.count) ∧
    (i ≠ .sendb → (∀ cmd, i ≠ .send cmd) → t.txOut = s.txOut) ∧
    (i ≠ .pop → i ≠ .parse → (∀ off, i ≠ .peek off) → t.draws = s.draws) ∧
    (i = .stat → t.fault = s.fault)

/-- The frame of LINE and DRAIN: what each leaves unchanged. -/
def Obligations.ReceiveStepsLeaveTheRestUnchanged : Prop :=
  ∀ (e : Event) (s t : State), agentStep e s = .next t → (∃ r, e = .line r) ∨ (∃ now, e = .drain now) →
    t.mode = s.mode ∧ t.fault = s.fault ∧ t.bound = s.bound ∧ t.moduleEn = s.moduleEn ∧ t.rxEn = s.rxEn ∧
    t.txEn = s.txEn ∧ t.brg = s.brg ∧ t.rd = s.rd ∧ t.txOut = s.txOut ∧ t.params = s.params ∧
    t.argBaud = s.argBaud ∧ t.argBytes = s.argBytes ∧ t.results = s.results ∧ t.draws = s.draws ∧
    t.schedule = s.schedule

/-- R73: a DRAIN step and a SENDB, or a SEND whose payload the length byte can carry, commute. -/
def Obligations.DrainAndSendCommute : Prop :=
  ∀ (s : State) (now : Millis) (cw : Word) (baud : Baud) (bytes : List Byte) (i : Instr),
    decode cw = .ok i → (i = .sendb ∨ (bytes.length ≤ 253 ∧ ∃ cmd, i = .send cmd)) →
    runEvents [.drain now, .ctrl cw baud bytes] s = runEvents [.ctrl cw baud bytes, .drain now] s

/-- R73: what SENDB and SEND transmit does not depend on any receive state. -/
def Obligations.TransmissionReadsNoReceiveState : Prop :=
  ∀ (i : Instr) (s t s' t' : State), (i = .sendb ∨ ∃ cmd, i = .send cmd) →
    s.fault = t.fault → s.mode = t.mode → s.argBytes = t.argBytes → exec i s = .next s' → exec i t = .next t' →
    ∃ sent, s'.txOut = s.txOut ++ sent ∧ t'.txOut = t.txOut ++ sent ∧ s'.fault = t'.fault

/-! ## Invariants -/

/-- R231 with R3 and R4: the state after reset meets the invariant. -/
def Obligations.ResetMeetsTheInvariant : Prop := State.reset.Inv

/-- R25 to R33, R40, R130: every step keeps the invariant. -/
def Obligations.StepKeepsTheInvariant : Prop := ∀ s t : State, s.Inv → step s = .next t → t.Inv

/-- R84, R205: in a state that meets the invariant no step stops, whatever the environment does within the ports. -/
def Obligations.NoStepStopsUnderTheInvariant : Prop :=
  ∀ s : State, s.Inv → s.scheduleOk → ∃ t, step s = .next t ∧ t.scheduleOk

/-- R40, R29: under the invariant the circular buffer is a first-in first-out queue of at most N bytes. -/
def Obligations.CircularBufferIsAQueue : Prop :=
  ∀ s : State, s.Inv → s.running →
    (∀ now b rest, s.hwRx = ⟨b, false, false⟩ :: rest → s.count < s.params.capacity →
      ∃ t, agentStep (.drain now) s = .next t ∧ t.queue = s.queue ++ [some b]) ∧
    (s.queue = [] → exec .pop s = .next { s with results := s.results ++ [.byte 0x00#8 true] }) ∧
    (∀ b tail, s.queue = some b :: tail →
      ∃ t, exec .pop s = .next t ∧ t.queue = tail ∧ t.results = s.results ++ [.byte b false]) ∧
    (∀ (off b : Byte), s.queue[off.toNat]? = some (some b) →
      exec (.peek off) s = .next { s with results := s.results ++ [.byte b false] }) ∧
    (∃ t, exec .flush s = .next t ∧ t.queue = []) ∧
    s.queue.length ≤ s.params.capacity ∧ ∀ c ∈ s.queue, c.isSome = true
end

