-- ==== Sys2Proof/Laws/Codec.lean ====
section
/-! SUPPORT. The XOR fold and the validation of a frame (41_codec.md R170, R171, R182). -/

namespace Sys2Proof.Machine

@[simp] theorem xorAll_nil : xorAll [] = 0x00#8 := rfl

@[simp] theorem xorAll_cons (b : Byte) (bs : List Byte) : xorAll (b :: bs) = b ^^^ xorAll bs := rfl

@[simp] theorem xorAll_append (as bs : List Byte) : xorAll (as ++ bs) = xorAll as ^^^ xorAll bs := by
  induction as with
  | nil => simp
  | cons a as ih => simp [ih, BitVec.xor_assoc]

theorem foldl_xor (bs : List Byte) (x : Byte) : bs.foldl (· ^^^ ·) x = x ^^^ xorAll bs := by
  induction bs generalizing x with
  | nil => simp
  | cons b bs ih => simp [ih, BitVec.xor_assoc]

/-- Changing one byte by `x` changes the fold by `x`. -/
theorem xorAll_modify (bs : List Byte) (i : Nat) (x : Byte) (hi : i < bs.length) :
    xorAll (bs.modify i (· ^^^ x)) = xorAll bs ^^^ x := by
  induction bs generalizing i with
  | nil => simp at hi
  | cons b bs ih =>
    cases i with
    | zero =>
      simp only [List.modify_zero_cons, xorAll_cons]
      rw [BitVec.xor_assoc, BitVec.xor_comm x, ← BitVec.xor_assoc]
    | succ i =>
      simp only [List.modify_succ_cons, xorAll_cons]
      rw [ih i (by simpa using hi), BitVec.xor_assoc]

theorem payloadLength_add_two (lb : Byte) : payloadLength lb + 2#8 = lb := by
  simp [payloadLength]

/-- VALIDATE of a frame with the zero-fill is the XOR of its bytes (R169). -/
theorem validate_zero_fill (cmd lb : Byte) (payload : List Byte) :
    validate cmd (lb - 2#8) payload 0x00#8 = true ↔ xorAll (cmd :: lb :: payload) = 0x00#8 := by
  simp only [validate, beq_iff_eq, xorAll_cons, BitVec.sub_add_cancel, BitVec.xor_zero, BitVec.xor_assoc]

end Sys2Proof.Machine
end

