-- ==== Sys2Proof/Laws/Decode.lean ====
section
/-! SUPPORT. The fields of an encoded operation, and the forms a decoded word can have. -/

namespace Sys2Proof

@[simp] theorem opField_encode (i : Instr) : opField (encode i) = opcodeOf i := by
  unfold opField encode
  generalize opcodeOf i = op
  generalize operandOf i = imm
  ext j hj
  simp only [BitVec.getElem_extractLsb', BitVec.getLsbD_append]
  have : ¬ (12 + j < 4 + 8) := by omega
  simp [this, BitVec.getLsbD_eq_getElem hj]

@[simp] theorem rsvField_encode (i : Instr) : rsvField (encode i) = 0#4 := by
  unfold rsvField encode
  generalize opcodeOf i = op
  generalize operandOf i = imm
  ext j hj
  simp only [BitVec.getElem_extractLsb', BitVec.getLsbD_append]
  have h1 : 8 + j < 4 + 8 := by omega
  have h2 : ¬ (8 + j < 8) := by omega
  simp [h1, h2]

@[simp] theorem imm8Field_encode (i : Instr) : imm8Field (encode i) = operandOf i := by
  unfold imm8Field encode
  generalize opcodeOf i = op
  generalize operandOf i = imm
  ext j hj
  simp only [BitVec.getElem_extractLsb', BitVec.getLsbD_append]
  have h1 : j < 12 := by omega
  simp [h1, hj]

/-- A word is its three fields put together (R80). -/
theorem word_eq_fields (w : Word) : w = opField w ++ (rsvField w ++ imm8Field w) := by
  unfold opField rsvField imm8Field
  apply BitVec.eq_of_getLsbD_eq
  intro j hj
  simp only [BitVec.getLsbD_append, BitVec.getLsbD_extractLsb']
  by_cases h1 : j < 4 + 8
  · by_cases h2 : j < 8
    · simp [h1, h2]
    · have h3 : j - 8 < 4 := by omega
      have h4 : 8 + (j - 8) = j := by omega
      simp [h1, h2, h3, h4]
  · have h3 : j - (4 + 8) < 4 := by omega
    have h4 : 12 + (j - (4 + 8)) = j := by omega
    simp only [h1, if_false, h3, decide_true, Bool.true_and, h4]

/-- What a word that decodes says of its fields (R81 to R83): the inversion of the decoder. -/
theorem decode_fields {w : Word} {i : Instr} (h : decode w = .ok i) :
    rsvField w = 0#4 ∧ opField w = opcodeOf i ∧ imm8Field w = operandOf i := by
  unfold decode at h
  split at h
  · rename_i hr
    refine ⟨hr, ?_⟩
    unfold decodeOp withoutOperand at h
    repeat' split at h
    all_goals try cases h
    all_goals exact ⟨‹_›, by first | rfl | assumption⟩
  · cases h

end Sys2Proof
end

