-- ==== Sys2Proof/Laws/Memory.lean ====
section
/-! SUPPORT. The storage: a read after a write, the canonical form kept, and the range of the cells listed. -/

namespace Sys2Proof.Machine

@[simp] theorem Memory.read_nil (i : Nat) : Memory.read [] i = none := rfl

theorem Memory.read_write_same (m : Memory) (i : Nat) (v : Byte) : (m.write i v).read i = some v := by
  induction m with
  | nil => simp [Memory.write, Memory.read]
  | cons c m ih =>
    obtain ⟨a, b⟩ := c
    unfold Memory.write
    split
    · simp [Memory.read]
    · split
      · simp [Memory.read]
      · rename_i h
        simp [Memory.read, Ne.symm h, ih]

theorem Memory.read_write_other (m : Memory) (i j : Nat) (v : Byte) (h : j ≠ i) :
    (m.write i v).read j = m.read j := by
  induction m with
  | nil => simp [Memory.write, Memory.read, Ne.symm h, Memory.unlisted]
  | cons c m ih =>
    obtain ⟨a, b⟩ := c
    unfold Memory.write
    split
    · simp [Memory.read, Ne.symm h]
    · split
      · rename_i hia
        subst hia
        simp [Memory.read, Ne.symm h]
      · simp [Memory.read, ih]

theorem Memory.read_write (m : Memory) (i j : Nat) (v : Byte) :
    (m.write i v).read j = if j = i then some v else m.read j := by
  split
  · rename_i h
    rw [h, Memory.read_write_same]
  · rename_i h
    exact Memory.read_write_other m i j v h

theorem Memory.wf_iff (m : Memory) : m.wf = true ↔ m.Pairwise (fun c d => c.1 < d.1) := by
  induction m with
  | nil => simp [Memory.wf]
  | cons c m ih =>
    cases m with
    | nil => simp [Memory.wf]
    | cons d m =>
      obtain ⟨a, b⟩ := c
      obtain ⟨e, f⟩ := d
      rw [List.pairwise_cons, ← ih]
      simp only [Memory.wf, Bool.and_eq_true, decide_eq_true_eq]
      constructor
      · rintro ⟨hae, hwf⟩
        refine ⟨?_, hwf⟩
        intro x hx
        rcases List.mem_cons.mp hx with rfl | hx
        · exact hae
        · have := (List.pairwise_cons.mp (ih.mp hwf)).1 x hx
          exact Nat.lt_trans hae this
      · rintro ⟨hall, hwf⟩
        exact ⟨hall (e, f) (List.mem_cons_self ..), hwf⟩

theorem Memory.mem_write {m : Memory} {i : Nat} {v : Byte} {c : Host.Cell} (h : c ∈ m.write i v) :
    c = (i, v) ∨ c ∈ m := by
  induction m with
  | nil => simpa [Memory.write] using h
  | cons d m ih =>
    obtain ⟨a, b⟩ := d
    unfold Memory.write at h
    split at h
    · simpa using h
    · split at h
      · rcases List.mem_cons.mp h with h | h
        · exact .inl h
        · exact .inr (List.mem_cons_of_mem _ h)
      · rcases List.mem_cons.mp h with h | h
        · exact .inr (h ▸ List.mem_cons_self ..)
        · exact (ih h).imp id (List.mem_cons_of_mem _)

/-- A write keeps the canonical form. -/
theorem Memory.write_wf (m : Memory) (i : Nat) (v : Byte) (h : m.wf = true) : (m.write i v).wf = true := by
  rw [Memory.wf_iff] at h ⊢
  induction m with
  | nil => simp [Memory.write]
  | cons c m ih =>
    obtain ⟨a, b⟩ := c
    obtain ⟨hhead, htail⟩ := List.pairwise_cons.mp h
    unfold Memory.write
    split
    · rename_i hlt
      refine List.pairwise_cons.mpr ⟨?_, h⟩
      intro x hx
      rcases List.mem_cons.mp hx with rfl | hx
      · exact hlt
      · exact Nat.lt_trans hlt (hhead x hx)
    · split
      · rename_i heq
        subst heq
        exact List.pairwise_cons.mpr ⟨hhead, htail⟩
      · refine List.pairwise_cons.mpr ⟨?_, ih htail⟩
        intro x hx
        rcases Memory.mem_write hx with rfl | hx
        · show a < i
          omega
        · exact hhead x hx

/-- A write in range keeps the cells in range. -/
theorem Memory.write_range (m : Memory) (i n : Nat) (v : Byte) (hi : i < n) (h : ∀ c ∈ m, c.1 < n) :
    ∀ c ∈ m.write i v, c.1 < n := by
  intro c hc
  rcases Memory.mem_write hc with rfl | hc
  · exact hi
  · exact h c hc

/-- A cell at or above every listed index is unset. -/
theorem Memory.read_eq_none_of_range (m : Memory) (i n : Nat) (hi : n ≤ i) (h : ∀ c ∈ m, c.1 < n) :
    m.read i = none := by
  induction m with
  | nil => rfl
  | cons c m ih =>
    obtain ⟨a, b⟩ := c
    have ha : a < n := h (a, b) (List.mem_cons_self ..)
    have hne : a ≠ i := by omega
    simp only [Memory.read, hne, if_false]
    exact ih fun d hd => h d (List.mem_cons_of_mem _ hd)

/-- Two storages in canonical form that read alike are equal data. -/
theorem Memory.ext_of_wf (m n : Memory) (hm : m.wf = true) (hn : n.wf = true) (h : ∀ i, m.read i = n.read i) :
    m = n := by
  rw [Memory.wf_iff] at hm hn
  induction m generalizing n with
  | nil =>
    cases n with
    | nil => rfl
    | cons d n => simpa [Memory.read, Memory.unlisted] using h d.1
  | cons c m ih =>
    obtain ⟨a, b⟩ := c
    obtain ⟨hma, hmt⟩ := List.pairwise_cons.mp hm
    cases n with
    | nil => simpa [Memory.read, Memory.unlisted] using h a
    | cons d n =>
      obtain ⟨e, f⟩ := d
      obtain ⟨hne, hnt⟩ := List.pairwise_cons.mp hn
      have low : ∀ (l : Memory) (x : Nat), (∀ c ∈ l, x < c.1) → l.read x = none := by
        intro l x hl
        induction l with
        | nil => rfl
        | cons c l ihl =>
          have hx : x < c.1 := hl c (List.mem_cons_self ..)
          have hne : c.1 ≠ x := by omega
          obtain ⟨p, q⟩ := c
          simp only [Memory.read, show p ≠ x from hne, if_false]
          exact ihl fun d hd => hl d (List.mem_cons_of_mem _ hd)
      have hae : a = e := by
        rcases Nat.lt_trichotomy a e with hlt | heq | hgt
        · have h1 := h a
          rw [low ((e, f) :: n) a] at h1
          · simp [Memory.read] at h1
          · intro c hc
            rcases List.mem_cons.mp hc with rfl | hc
            · exact hlt
            · exact Nat.lt_trans hlt (hne c hc)
        · exact heq
        · have h1 := h e
          rw [low ((a, b) :: m) e] at h1
          · simp [Memory.read] at h1
          · intro c hc
            rcases List.mem_cons.mp hc with rfl | hc
            · exact hgt
            · exact Nat.lt_trans hgt (hma c hc)
      subst hae
      have hbf : b = f := by simpa [Memory.read] using h a
      subst hbf
      congr 1
      refine ih n hmt hnt ?_
      intro i
      by_cases hia : a = i
      · subst hia
        rw [low m a hma, low n a hne]
      · simpa [Memory.read, hia] using h i

end Sys2Proof.Machine
end

