-- ==== Sys2Proof/Laws/State.lean ====
section
/-! SUPPORT. One lemma per field per named update of State, each true by rfl. -/

namespace Sys2Proof.Machine

/-! `State.countDraw` -/
@[simp] theorem State.countDraw_mode (s : State) : (s.countDraw).mode = s.mode := rfl
@[simp] theorem State.countDraw_fault (s : State) : (s.countDraw).fault = s.fault := rfl
@[simp] theorem State.countDraw_bound (s : State) : (s.countDraw).bound = s.bound := rfl
@[simp] theorem State.countDraw_moduleEn (s : State) : (s.countDraw).moduleEn = s.moduleEn := rfl
@[simp] theorem State.countDraw_rxEn (s : State) : (s.countDraw).rxEn = s.rxEn := rfl
@[simp] theorem State.countDraw_txEn (s : State) : (s.countDraw).txEn = s.txEn := rfl
@[simp] theorem State.countDraw_brg (s : State) : (s.countDraw).brg = s.brg := rfl
@[simp] theorem State.countDraw_hwRx (s : State) : (s.countDraw).hwRx = s.hwRx := rfl
@[simp] theorem State.countDraw_oerr (s : State) : (s.countDraw).oerr = s.oerr := rfl
@[simp] theorem State.countDraw_q (s : State) : (s.countDraw).q = s.q := rfl
@[simp] theorem State.countDraw_rd (s : State) : (s.countDraw).rd = s.rd := rfl
@[simp] theorem State.countDraw_wr (s : State) : (s.countDraw).wr = s.wr := rfl
@[simp] theorem State.countDraw_count (s : State) : (s.countDraw).count = s.count := rfl
@[simp] theorem State.countDraw_lastRxMs (s : State) : (s.countDraw).lastRxMs = s.lastRxMs := rfl
@[simp] theorem State.countDraw_txOut (s : State) : (s.countDraw).txOut = s.txOut := rfl
@[simp] theorem State.countDraw_params (s : State) : (s.countDraw).params = s.params := rfl
@[simp] theorem State.countDraw_argBaud (s : State) : (s.countDraw).argBaud = s.argBaud := rfl
@[simp] theorem State.countDraw_argBytes (s : State) : (s.countDraw).argBytes = s.argBytes := rfl
@[simp] theorem State.countDraw_results (s : State) : (s.countDraw).results = s.results := rfl
@[simp] theorem State.countDraw_draws (s : State) : (s.countDraw).draws = s.draws + 1 := rfl
@[simp] theorem State.countDraw_schedule (s : State) : (s.countDraw).schedule = s.schedule := rfl

/-! `State.deliver` -/
@[simp] theorem State.deliver_mode (s : State) (r : Result) : (s.deliver r).mode = s.mode := rfl
@[simp] theorem State.deliver_fault (s : State) (r : Result) : (s.deliver r).fault = s.fault := rfl
@[simp] theorem State.deliver_bound (s : State) (r : Result) : (s.deliver r).bound = s.bound := rfl
@[simp] theorem State.deliver_moduleEn (s : State) (r : Result) : (s.deliver r).moduleEn = s.moduleEn := rfl
@[simp] theorem State.deliver_rxEn (s : State) (r : Result) : (s.deliver r).rxEn = s.rxEn := rfl
@[simp] theorem State.deliver_txEn (s : State) (r : Result) : (s.deliver r).txEn = s.txEn := rfl
@[simp] theorem State.deliver_brg (s : State) (r : Result) : (s.deliver r).brg = s.brg := rfl
@[simp] theorem State.deliver_hwRx (s : State) (r : Result) : (s.deliver r).hwRx = s.hwRx := rfl
@[simp] theorem State.deliver_oerr (s : State) (r : Result) : (s.deliver r).oerr = s.oerr := rfl
@[simp] theorem State.deliver_q (s : State) (r : Result) : (s.deliver r).q = s.q := rfl
@[simp] theorem State.deliver_rd (s : State) (r : Result) : (s.deliver r).rd = s.rd := rfl
@[simp] theorem State.deliver_wr (s : State) (r : Result) : (s.deliver r).wr = s.wr := rfl
@[simp] theorem State.deliver_count (s : State) (r : Result) : (s.deliver r).count = s.count := rfl
@[simp] theorem State.deliver_lastRxMs (s : State) (r : Result) : (s.deliver r).lastRxMs = s.lastRxMs := rfl
@[simp] theorem State.deliver_txOut (s : State) (r : Result) : (s.deliver r).txOut = s.txOut := rfl
@[simp] theorem State.deliver_params (s : State) (r : Result) : (s.deliver r).params = s.params := rfl
@[simp] theorem State.deliver_argBaud (s : State) (r : Result) : (s.deliver r).argBaud = s.argBaud := rfl
@[simp] theorem State.deliver_argBytes (s : State) (r : Result) : (s.deliver r).argBytes = s.argBytes := rfl
@[simp] theorem State.deliver_results (s : State) (r : Result) : (s.deliver r).results = s.results ++ [r] := rfl
@[simp] theorem State.deliver_draws (s : State) (r : Result) : (s.deliver r).draws = s.draws := rfl
@[simp] theorem State.deliver_schedule (s : State) (r : Result) : (s.deliver r).schedule = s.schedule := rfl

/-! `State.present` -/
@[simp] theorem State.present_mode (s : State) (baud : Baud) (bytes : List Byte) : (s.present baud bytes).mode = s.mode := rfl
@[simp] theorem State.present_fault (s : State) (baud : Baud) (bytes : List Byte) : (s.present baud bytes).fault = s.fault := rfl
@[simp] theorem State.present_bound (s : State) (baud : Baud) (bytes : List Byte) : (s.present baud bytes).bound = s.bound := rfl
@[simp] theorem State.present_moduleEn (s : State) (baud : Baud) (bytes : List Byte) : (s.present baud bytes).moduleEn = s.moduleEn := rfl
@[simp] theorem State.present_rxEn (s : State) (baud : Baud) (bytes : List Byte) : (s.present baud bytes).rxEn = s.rxEn := rfl
@[simp] theorem State.present_txEn (s : State) (baud : Baud) (bytes : List Byte) : (s.present baud bytes).txEn = s.txEn := rfl
@[simp] theorem State.present_brg (s : State) (baud : Baud) (bytes : List Byte) : (s.present baud bytes).brg = s.brg := rfl
@[simp] theorem State.present_hwRx (s : State) (baud : Baud) (bytes : List Byte) : (s.present baud bytes).hwRx = s.hwRx := rfl
@[simp] theorem State.present_oerr (s : State) (baud : Baud) (bytes : List Byte) : (s.present baud bytes).oerr = s.oerr := rfl
@[simp] theorem State.present_q (s : State) (baud : Baud) (bytes : List Byte) : (s.present baud bytes).q = s.q := rfl
@[simp] theorem State.present_rd (s : State) (baud : Baud) (bytes : List Byte) : (s.present baud bytes).rd = s.rd := rfl
@[simp] theorem State.present_wr (s : State) (baud : Baud) (bytes : List Byte) : (s.present baud bytes).wr = s.wr := rfl
@[simp] theorem State.present_count (s : State) (baud : Baud) (bytes : List Byte) : (s.present baud bytes).count = s.count := rfl
@[simp] theorem State.present_lastRxMs (s : State) (baud : Baud) (bytes : List Byte) : (s.present baud bytes).lastRxMs = s.lastRxMs := rfl
@[simp] theorem State.present_txOut (s : State) (baud : Baud) (bytes : List Byte) : (s.present baud bytes).txOut = s.txOut := rfl
@[simp] theorem State.present_params (s : State) (baud : Baud) (bytes : List Byte) : (s.present baud bytes).params = s.params := rfl
@[simp] theorem State.present_argBaud (s : State) (baud : Baud) (bytes : List Byte) : (s.present baud bytes).argBaud = baud := rfl
@[simp] theorem State.present_argBytes (s : State) (baud : Baud) (bytes : List Byte) : (s.present baud bytes).argBytes = bytes := rfl
@[simp] theorem State.present_results (s : State) (baud : Baud) (bytes : List Byte) : (s.present baud bytes).results = s.results := rfl
@[simp] theorem State.present_draws (s : State) (baud : Baud) (bytes : List Byte) : (s.present baud bytes).draws = s.draws := rfl
@[simp] theorem State.present_schedule (s : State) (baud : Baud) (bytes : List Byte) : (s.present baud bytes).schedule = s.schedule := rfl

/-! `State.transmit` -/
@[simp] theorem State.transmit_mode (s : State) (bytes : List Byte) : (s.transmit bytes).mode = s.mode := rfl
@[simp] theorem State.transmit_fault (s : State) (bytes : List Byte) : (s.transmit bytes).fault = s.fault := rfl
@[simp] theorem State.transmit_bound (s : State) (bytes : List Byte) : (s.transmit bytes).bound = s.bound := rfl
@[simp] theorem State.transmit_moduleEn (s : State) (bytes : List Byte) : (s.transmit bytes).moduleEn = s.moduleEn := rfl
@[simp] theorem State.transmit_rxEn (s : State) (bytes : List Byte) : (s.transmit bytes).rxEn = s.rxEn := rfl
@[simp] theorem State.transmit_txEn (s : State) (bytes : List Byte) : (s.transmit bytes).txEn = s.txEn := rfl
@[simp] theorem State.transmit_brg (s : State) (bytes : List Byte) : (s.transmit bytes).brg = s.brg := rfl
@[simp] theorem State.transmit_hwRx (s : State) (bytes : List Byte) : (s.transmit bytes).hwRx = s.hwRx := rfl
@[simp] theorem State.transmit_oerr (s : State) (bytes : List Byte) : (s.transmit bytes).oerr = s.oerr := rfl
@[simp] theorem State.transmit_q (s : State) (bytes : List Byte) : (s.transmit bytes).q = s.q := rfl
@[simp] theorem State.transmit_rd (s : State) (bytes : List Byte) : (s.transmit bytes).rd = s.rd := rfl
@[simp] theorem State.transmit_wr (s : State) (bytes : List Byte) : (s.transmit bytes).wr = s.wr := rfl
@[simp] theorem State.transmit_count (s : State) (bytes : List Byte) : (s.transmit bytes).count = s.count := rfl
@[simp] theorem State.transmit_lastRxMs (s : State) (bytes : List Byte) : (s.transmit bytes).lastRxMs = s.lastRxMs := rfl
@[simp] theorem State.transmit_txOut (s : State) (bytes : List Byte) : (s.transmit bytes).txOut = s.txOut ++ bytes := rfl
@[simp] theorem State.transmit_params (s : State) (bytes : List Byte) : (s.transmit bytes).params = s.params := rfl
@[simp] theorem State.transmit_argBaud (s : State) (bytes : List Byte) : (s.transmit bytes).argBaud = s.argBaud := rfl
@[simp] theorem State.transmit_argBytes (s : State) (bytes : List Byte) : (s.transmit bytes).argBytes = s.argBytes := rfl
@[simp] theorem State.transmit_results (s : State) (bytes : List Byte) : (s.transmit bytes).results = s.results := rfl
@[simp] theorem State.transmit_draws (s : State) (bytes : List Byte) : (s.transmit bytes).draws = s.draws := rfl
@[simp] theorem State.transmit_schedule (s : State) (bytes : List Byte) : (s.transmit bytes).schedule = s.schedule := rfl

/-! `State.emptyQueue` -/
@[simp] theorem State.emptyQueue_mode (s : State) : (s.emptyQueue).mode = s.mode := rfl
@[simp] theorem State.emptyQueue_fault (s : State) : (s.emptyQueue).fault = s.fault := rfl
@[simp] theorem State.emptyQueue_bound (s : State) : (s.emptyQueue).bound = s.bound := rfl
@[simp] theorem State.emptyQueue_moduleEn (s : State) : (s.emptyQueue).moduleEn = s.moduleEn := rfl
@[simp] theorem State.emptyQueue_rxEn (s : State) : (s.emptyQueue).rxEn = s.rxEn := rfl
@[simp] theorem State.emptyQueue_txEn (s : State) : (s.emptyQueue).txEn = s.txEn := rfl
@[simp] theorem State.emptyQueue_brg (s : State) : (s.emptyQueue).brg = s.brg := rfl
@[simp] theorem State.emptyQueue_hwRx (s : State) : (s.emptyQueue).hwRx = s.hwRx := rfl
@[simp] theorem State.emptyQueue_oerr (s : State) : (s.emptyQueue).oerr = s.oerr := rfl
@[simp] theorem State.emptyQueue_q (s : State) : (s.emptyQueue).q = s.q := rfl
@[simp] theorem State.emptyQueue_rd (s : State) : (s.emptyQueue).rd = 0 := rfl
@[simp] theorem State.emptyQueue_wr (s : State) : (s.emptyQueue).wr = 0 := rfl
@[simp] theorem State.emptyQueue_count (s : State) : (s.emptyQueue).count = 0 := rfl
@[simp] theorem State.emptyQueue_lastRxMs (s : State) : (s.emptyQueue).lastRxMs = s.lastRxMs := rfl
@[simp] theorem State.emptyQueue_txOut (s : State) : (s.emptyQueue).txOut = s.txOut := rfl
@[simp] theorem State.emptyQueue_params (s : State) : (s.emptyQueue).params = s.params := rfl
@[simp] theorem State.emptyQueue_argBaud (s : State) : (s.emptyQueue).argBaud = s.argBaud := rfl
@[simp] theorem State.emptyQueue_argBytes (s : State) : (s.emptyQueue).argBytes = s.argBytes := rfl
@[simp] theorem State.emptyQueue_results (s : State) : (s.emptyQueue).results = s.results := rfl
@[simp] theorem State.emptyQueue_draws (s : State) : (s.emptyQueue).draws = s.draws := rfl
@[simp] theorem State.emptyQueue_schedule (s : State) : (s.emptyQueue).schedule = s.schedule := rfl

/-! `State.consumeOne` -/
@[simp] theorem State.consumeOne_mode (s : State) : (s.consumeOne).mode = s.mode := rfl
@[simp] theorem State.consumeOne_fault (s : State) : (s.consumeOne).fault = s.fault := rfl
@[simp] theorem State.consumeOne_bound (s : State) : (s.consumeOne).bound = s.bound := rfl
@[simp] theorem State.consumeOne_moduleEn (s : State) : (s.consumeOne).moduleEn = s.moduleEn := rfl
@[simp] theorem State.consumeOne_rxEn (s : State) : (s.consumeOne).rxEn = s.rxEn := rfl
@[simp] theorem State.consumeOne_txEn (s : State) : (s.consumeOne).txEn = s.txEn := rfl
@[simp] theorem State.consumeOne_brg (s : State) : (s.consumeOne).brg = s.brg := rfl
@[simp] theorem State.consumeOne_hwRx (s : State) : (s.consumeOne).hwRx = s.hwRx := rfl
@[simp] theorem State.consumeOne_oerr (s : State) : (s.consumeOne).oerr = s.oerr := rfl
@[simp] theorem State.consumeOne_q (s : State) : (s.consumeOne).q = s.q := rfl
@[simp] theorem State.consumeOne_rd (s : State) : (s.consumeOne).rd = advance s s.rd := rfl
@[simp] theorem State.consumeOne_wr (s : State) : (s.consumeOne).wr = s.wr := rfl
@[simp] theorem State.consumeOne_count (s : State) : (s.consumeOne).count = s.count - 1 := rfl
@[simp] theorem State.consumeOne_lastRxMs (s : State) : (s.consumeOne).lastRxMs = s.lastRxMs := rfl
@[simp] theorem State.consumeOne_txOut (s : State) : (s.consumeOne).txOut = s.txOut := rfl
@[simp] theorem State.consumeOne_params (s : State) : (s.consumeOne).params = s.params := rfl
@[simp] theorem State.consumeOne_argBaud (s : State) : (s.consumeOne).argBaud = s.argBaud := rfl
@[simp] theorem State.consumeOne_argBytes (s : State) : (s.consumeOne).argBytes = s.argBytes := rfl
@[simp] theorem State.consumeOne_results (s : State) : (s.consumeOne).results = s.results := rfl
@[simp] theorem State.consumeOne_draws (s : State) : (s.consumeOne).draws = s.draws := rfl
@[simp] theorem State.consumeOne_schedule (s : State) : (s.consumeOne).schedule = s.schedule := rfl

/-! `State.appendOne` -/
@[simp] theorem State.appendOne_mode (s : State) (t : Millis) : (s.appendOne t).mode = s.mode := rfl
@[simp] theorem State.appendOne_fault (s : State) (t : Millis) : (s.appendOne t).fault = s.fault := rfl
@[simp] theorem State.appendOne_bound (s : State) (t : Millis) : (s.appendOne t).bound = s.bound := rfl
@[simp] theorem State.appendOne_moduleEn (s : State) (t : Millis) : (s.appendOne t).moduleEn = s.moduleEn := rfl
@[simp] theorem State.appendOne_rxEn (s : State) (t : Millis) : (s.appendOne t).rxEn = s.rxEn := rfl
@[simp] theorem State.appendOne_txEn (s : State) (t : Millis) : (s.appendOne t).txEn = s.txEn := rfl
@[simp] theorem State.appendOne_brg (s : State) (t : Millis) : (s.appendOne t).brg = s.brg := rfl
@[simp] theorem State.appendOne_hwRx (s : State) (t : Millis) : (s.appendOne t).hwRx = s.hwRx := rfl
@[simp] theorem State.appendOne_oerr (s : State) (t : Millis) : (s.appendOne t).oerr = s.oerr := rfl
@[simp] theorem State.appendOne_q (s : State) (t : Millis) : (s.appendOne t).q = s.q := rfl
@[simp] theorem State.appendOne_rd (s : State) (t : Millis) : (s.appendOne t).rd = s.rd := rfl
@[simp] theorem State.appendOne_wr (s : State) (t : Millis) : (s.appendOne t).wr = advance s s.wr := rfl
@[simp] theorem State.appendOne_count (s : State) (t : Millis) : (s.appendOne t).count = s.count + 1 := rfl
@[simp] theorem State.appendOne_lastRxMs (s : State) (t : Millis) : (s.appendOne t).lastRxMs = t := rfl
@[simp] theorem State.appendOne_txOut (s : State) (t : Millis) : (s.appendOne t).txOut = s.txOut := rfl
@[simp] theorem State.appendOne_params (s : State) (t : Millis) : (s.appendOne t).params = s.params := rfl
@[simp] theorem State.appendOne_argBaud (s : State) (t : Millis) : (s.appendOne t).argBaud = s.argBaud := rfl
@[simp] theorem State.appendOne_argBytes (s : State) (t : Millis) : (s.appendOne t).argBytes = s.argBytes := rfl
@[simp] theorem State.appendOne_results (s : State) (t : Millis) : (s.appendOne t).results = s.results := rfl
@[simp] theorem State.appendOne_draws (s : State) (t : Millis) : (s.appendOne t).draws = s.draws := rfl
@[simp] theorem State.appendOne_schedule (s : State) (t : Millis) : (s.appendOne t).schedule = s.schedule := rfl

/-! `State.takeRecord` -/
@[simp] theorem State.takeRecord_mode (s : State) (rest : List RxRecord) : (s.takeRecord rest).mode = s.mode := rfl
@[simp] theorem State.takeRecord_fault (s : State) (rest : List RxRecord) : (s.takeRecord rest).fault = s.fault := rfl
@[simp] theorem State.takeRecord_bound (s : State) (rest : List RxRecord) : (s.takeRecord rest).bound = s.bound := rfl
@[simp] theorem State.takeRecord_moduleEn (s : State) (rest : List RxRecord) : (s.takeRecord rest).moduleEn = s.moduleEn := rfl
@[simp] theorem State.takeRecord_rxEn (s : State) (rest : List RxRecord) : (s.takeRecord rest).rxEn = s.rxEn := rfl
@[simp] theorem State.takeRecord_txEn (s : State) (rest : List RxRecord) : (s.takeRecord rest).txEn = s.txEn := rfl
@[simp] theorem State.takeRecord_brg (s : State) (rest : List RxRecord) : (s.takeRecord rest).brg = s.brg := rfl
@[simp] theorem State.takeRecord_hwRx (s : State) (rest : List RxRecord) : (s.takeRecord rest).hwRx = rest := rfl
@[simp] theorem State.takeRecord_oerr (s : State) (rest : List RxRecord) : (s.takeRecord rest).oerr = false := rfl
@[simp] theorem State.takeRecord_q (s : State) (rest : List RxRecord) : (s.takeRecord rest).q = s.q := rfl
@[simp] theorem State.takeRecord_rd (s : State) (rest : List RxRecord) : (s.takeRecord rest).rd = s.rd := rfl
@[simp] theorem State.takeRecord_wr (s : State) (rest : List RxRecord) : (s.takeRecord rest).wr = s.wr := rfl
@[simp] theorem State.takeRecord_count (s : State) (rest : List RxRecord) : (s.takeRecord rest).count = s.count := rfl
@[simp] theorem State.takeRecord_lastRxMs (s : State) (rest : List RxRecord) : (s.takeRecord rest).lastRxMs = s.lastRxMs := rfl
@[simp] theorem State.takeRecord_txOut (s : State) (rest : List RxRecord) : (s.takeRecord rest).txOut = s.txOut := rfl
@[simp] theorem State.takeRecord_params (s : State) (rest : List RxRecord) : (s.takeRecord rest).params = s.params := rfl
@[simp] theorem State.takeRecord_argBaud (s : State) (rest : List RxRecord) : (s.takeRecord rest).argBaud = s.argBaud := rfl
@[simp] theorem State.takeRecord_argBytes (s : State) (rest : List RxRecord) : (s.takeRecord rest).argBytes = s.argBytes := rfl
@[simp] theorem State.takeRecord_results (s : State) (rest : List RxRecord) : (s.takeRecord rest).results = s.results := rfl
@[simp] theorem State.takeRecord_draws (s : State) (rest : List RxRecord) : (s.takeRecord rest).draws = s.draws := rfl
@[simp] theorem State.takeRecord_schedule (s : State) (rest : List RxRecord) : (s.takeRecord rest).schedule = s.schedule := rfl

/-! `State.raise` -/
@[simp] theorem State.raise_mode (s : State) (code : FaultCode) : (s.raise code).mode = s.mode := rfl
@[simp] theorem State.raise_fault (s : State) (code : FaultCode) : (s.raise code).fault = code := rfl
@[simp] theorem State.raise_bound (s : State) (code : FaultCode) : (s.raise code).bound = s.bound := rfl
@[simp] theorem State.raise_moduleEn (s : State) (code : FaultCode) : (s.raise code).moduleEn = s.moduleEn := rfl
@[simp] theorem State.raise_rxEn (s : State) (code : FaultCode) : (s.raise code).rxEn = s.rxEn := rfl
@[simp] theorem State.raise_txEn (s : State) (code : FaultCode) : (s.raise code).txEn = s.txEn := rfl
@[simp] theorem State.raise_brg (s : State) (code : FaultCode) : (s.raise code).brg = s.brg := rfl
@[simp] theorem State.raise_hwRx (s : State) (code : FaultCode) : (s.raise code).hwRx = s.hwRx := rfl
@[simp] theorem State.raise_oerr (s : State) (code : FaultCode) : (s.raise code).oerr = s.oerr := rfl
@[simp] theorem State.raise_q (s : State) (code : FaultCode) : (s.raise code).q = s.q := rfl
@[simp] theorem State.raise_rd (s : State) (code : FaultCode) : (s.raise code).rd = s.rd := rfl
@[simp] theorem State.raise_wr (s : State) (code : FaultCode) : (s.raise code).wr = s.wr := rfl
@[simp] theorem State.raise_count (s : State) (code : FaultCode) : (s.raise code).count = s.count := rfl
@[simp] theorem State.raise_lastRxMs (s : State) (code : FaultCode) : (s.raise code).lastRxMs = s.lastRxMs := rfl
@[simp] theorem State.raise_txOut (s : State) (code : FaultCode) : (s.raise code).txOut = s.txOut := rfl
@[simp] theorem State.raise_params (s : State) (code : FaultCode) : (s.raise code).params = s.params := rfl
@[simp] theorem State.raise_argBaud (s : State) (code : FaultCode) : (s.raise code).argBaud = s.argBaud := rfl
@[simp] theorem State.raise_argBytes (s : State) (code : FaultCode) : (s.raise code).argBytes = s.argBytes := rfl
@[simp] theorem State.raise_results (s : State) (code : FaultCode) : (s.raise code).results = s.results ++ [.fault code.code] := rfl
@[simp] theorem State.raise_draws (s : State) (code : FaultCode) : (s.raise code).draws = s.draws := rfl
@[simp] theorem State.raise_schedule (s : State) (code : FaultCode) : (s.raise code).schedule = s.schedule := rfl

/-! `State.refuse` -/
@[simp] theorem State.refuse_mode (s : State) : (s.refuse).mode = s.mode := rfl
@[simp] theorem State.refuse_fault (s : State) : (s.refuse).fault = s.fault := rfl
@[simp] theorem State.refuse_bound (s : State) : (s.refuse).bound = s.bound := rfl
@[simp] theorem State.refuse_moduleEn (s : State) : (s.refuse).moduleEn = s.moduleEn := rfl
@[simp] theorem State.refuse_rxEn (s : State) : (s.refuse).rxEn = s.rxEn := rfl
@[simp] theorem State.refuse_txEn (s : State) : (s.refuse).txEn = s.txEn := rfl
@[simp] theorem State.refuse_brg (s : State) : (s.refuse).brg = s.brg := rfl
@[simp] theorem State.refuse_hwRx (s : State) : (s.refuse).hwRx = s.hwRx := rfl
@[simp] theorem State.refuse_oerr (s : State) : (s.refuse).oerr = s.oerr := rfl
@[simp] theorem State.refuse_q (s : State) : (s.refuse).q = s.q := rfl
@[simp] theorem State.refuse_rd (s : State) : (s.refuse).rd = s.rd := rfl
@[simp] theorem State.refuse_wr (s : State) : (s.refuse).wr = s.wr := rfl
@[simp] theorem State.refuse_count (s : State) : (s.refuse).count = s.count := rfl
@[simp] theorem State.refuse_lastRxMs (s : State) : (s.refuse).lastRxMs = s.lastRxMs := rfl
@[simp] theorem State.refuse_txOut (s : State) : (s.refuse).txOut = s.txOut := rfl
@[simp] theorem State.refuse_params (s : State) : (s.refuse).params = s.params := rfl
@[simp] theorem State.refuse_argBaud (s : State) : (s.refuse).argBaud = s.argBaud := rfl
@[simp] theorem State.refuse_argBytes (s : State) : (s.refuse).argBytes = s.argBytes := rfl
@[simp] theorem State.refuse_results (s : State) : (s.refuse).results = s.results ++ [.refused] := rfl
@[simp] theorem State.refuse_draws (s : State) : (s.refuse).draws = s.draws := rfl
@[simp] theorem State.refuse_schedule (s : State) : (s.refuse).schedule = s.schedule := rfl

/-! `State.physicalReset` -/
@[simp] theorem State.physicalReset_mode (s : State) : (s.physicalReset).mode = .uninit := rfl
@[simp] theorem State.physicalReset_fault (s : State) : (s.physicalReset).fault = .noFault := rfl
@[simp] theorem State.physicalReset_bound (s : State) : (s.physicalReset).bound = false := rfl
@[simp] theorem State.physicalReset_moduleEn (s : State) : (s.physicalReset).moduleEn = false := rfl
@[simp] theorem State.physicalReset_rxEn (s : State) : (s.physicalReset).rxEn = false := rfl
@[simp] theorem State.physicalReset_txEn (s : State) : (s.physicalReset).txEn = false := rfl
@[simp] theorem State.physicalReset_brg (s : State) : (s.physicalReset).brg = 0#16 := rfl
@[simp] theorem State.physicalReset_hwRx (s : State) : (s.physicalReset).hwRx = [] := rfl
@[simp] theorem State.physicalReset_oerr (s : State) : (s.physicalReset).oerr = false := rfl
@[simp] theorem State.physicalReset_q (s : State) : (s.physicalReset).q = [] := rfl
@[simp] theorem State.physicalReset_rd (s : State) : (s.physicalReset).rd = 0 := rfl
@[simp] theorem State.physicalReset_wr (s : State) : (s.physicalReset).wr = 0 := rfl
@[simp] theorem State.physicalReset_count (s : State) : (s.physicalReset).count = 0 := rfl
@[simp] theorem State.physicalReset_lastRxMs (s : State) : (s.physicalReset).lastRxMs = 0#32 := rfl
@[simp] theorem State.physicalReset_txOut (s : State) : (s.physicalReset).txOut = [] := rfl
@[simp] theorem State.physicalReset_params (s : State) : (s.physicalReset).params = s.params := rfl
@[simp] theorem State.physicalReset_argBaud (s : State) : (s.physicalReset).argBaud = s.argBaud := rfl
@[simp] theorem State.physicalReset_argBytes (s : State) : (s.physicalReset).argBytes = s.argBytes := rfl
@[simp] theorem State.physicalReset_results (s : State) : (s.physicalReset).results = s.results := rfl
@[simp] theorem State.physicalReset_draws (s : State) : (s.physicalReset).draws = s.draws := rfl
@[simp] theorem State.physicalReset_schedule (s : State) : (s.physicalReset).schedule = s.schedule := rfl

end Sys2Proof.Machine
end

