-- ==== Sys2Proof/Laws/Ops.lean ====
section
/-! SUPPORT. What each shared operation can do, said once: storage accesses, pops, the common checks, the agents'
steps, and the inversion of `exec`. -/

namespace Sys2Proof.Machine

/-! ## Storage -/

theorem readCell_of_set {s : State} {i : Nat} {b : Byte} (hi : i < s.params.capacity) (h : s.q.read i = some b) :
    readCell s i = some (b, s) := by
  simp [readCell, hi, h]

theorem readCell_of_unset {s : State} {i : Nat} (hi : i < s.params.capacity) (h : s.q.read i = none) :
    readCell s i = some (Config.draw s.draws, s.countDraw) := by
  simp [readCell, hi, h]

theorem readCell_out_of_range {s : State} {i : Nat} (hi : ¬ i < s.params.capacity) : readCell s i = none := by
  simp [readCell, hi]

/-- Everything a read of a cell can do. -/
theorem readCell_cases {s t : State} {i : Nat} {b : Byte} (h : readCell s i = some (b, t)) :
    i < s.params.capacity ∧
      ((s.q.read i = some b ∧ t = s) ∨ (s.q.read i = none ∧ b = Config.draw s.draws ∧ t = s.countDraw)) := by
  unfold readCell at h
  split at h
  · refine ⟨‹_›, ?_⟩
    split at h
    · cases h
      exact .inl ⟨‹_›, rfl⟩
    · cases h
      exact .inr ⟨‹_›, rfl, rfl⟩
  · cases h

/-- A cell in range can be read. -/
theorem readCell_isSome {s : State} {i : Nat} (hi : i < s.params.capacity) : ∃ b t, readCell s i = some (b, t) := by
  cases h : s.q.read i with
  | some b => exact ⟨b, s, readCell_of_set hi h⟩
  | none => exact ⟨_, _, readCell_of_unset hi h⟩

/-- Everything a write of a cell can do. -/
theorem writeCell_cases {s t : State} {i : Nat} {b : Byte} (h : writeCell s i b = some t) :
    i < s.params.capacity ∧ t = { s with q := s.q.write i b } := by
  unfold writeCell at h
  split at h
  · cases h
    exact ⟨‹_›, rfl⟩
  · cases h

theorem writeCell_in_range {s : State} {i : Nat} (b : Byte) (hi : i < s.params.capacity) :
    writeCell s i b = some { s with q := s.q.write i b } := by
  simp [writeCell, hi]

@[simp] theorem orCellFault_some (s : State) : orCellFault (some s) = .next s := rfl

@[simp] theorem orCellFault_none : orCellFault none = .fault .cellOutOfRange := rfl

theorem orCellFault_next {o : Option State} {t : State} (h : orCellFault o = .next t) : o = some t := by
  cases o with
  | none => cases h
  | some s => cases h; rfl

/-! ## Cursors -/

theorem advance_lt {s : State} (x : Nat) (h : 0 < s.params.capacity) : advance s x < s.params.capacity :=
  Nat.mod_lt _ h

theorem peekIndex_lt {s : State} (off : Byte) (h : 0 < s.params.capacity) : peekIndex s off < s.params.capacity :=
  Nat.mod_lt _ h

/-! ## Pops -/

/-- `t` is `s` but for the read cursor, the count and the draws taken: all that a pop can write. -/
def State.PoppedFrom (s t : State) : Prop :=
  ∃ rd count draws, t = { s with rd := rd, count := count, draws := draws }

theorem State.PoppedFrom.refl (s : State) : s.PoppedFrom s := ⟨s.rd, s.count, s.draws, rfl⟩

theorem State.PoppedFrom.trans {s t u : State} (h : s.PoppedFrom t) (h' : t.PoppedFrom u) : s.PoppedFrom u := by
  obtain ⟨a, b, c, rfl⟩ := h
  obtain ⟨d, e, f, rfl⟩ := h'
  exact ⟨d, e, f, rfl⟩

theorem readCell_poppedFrom {s t : State} {i : Nat} {b : Byte} (h : readCell s i = some (b, t)) : s.PoppedFrom t := by
  obtain ⟨-, ⟨-, rfl⟩ | ⟨-, -, rfl⟩⟩ := readCell_cases h
  · exact .refl _
  · exact ⟨s.rd, s.count, s.draws + 1, rfl⟩

theorem popByte_empty {s : State} (h : s.count = 0) : popByte s = some (0x00#8, true, s) := by
  simp [popByte, h]

theorem popByte_of_set {s : State} {b : Byte} (hc : s.count ≠ 0) (hr : s.rd < s.params.capacity)
    (h : s.q.read s.rd = some b) : popByte s = some (b, false, s.consumeOne) := by
  simp [popByte, hc, readCell_of_set hr h]

/-- Everything a pop can do. -/
theorem popByte_cases {s t : State} {b : Byte} {e : Bool} (h : popByte s = some (b, e, t)) :
    (s.count = 0 ∧ b = 0x00#8 ∧ e = true ∧ t = s) ∨
      (s.count ≠ 0 ∧ e = false ∧ ∃ u, readCell s s.rd = some (b, u) ∧ t = u.consumeOne) := by
  unfold popByte at h
  split at h
  · cases h
    exact .inl ⟨‹_›, rfl, rfl, rfl⟩
  · split at h
    · cases h
      exact .inr ⟨‹_›, rfl, _, ‹_›, rfl⟩
    · cases h

theorem popByte_poppedFrom {s t : State} {b : Byte} {e : Bool} (h : popByte s = some (b, e, t)) :
    s.PoppedFrom t := by
  obtain ⟨-, -, -, rfl⟩ | ⟨-, -, u, hu, rfl⟩ := popByte_cases h
  · exact .refl _
  · exact (readCell_poppedFrom hu).trans ⟨_, _, u.draws, rfl⟩

theorem popZero_cases {s t : State} {b : Byte} (h : popZero s = some (b, t)) : ∃ e, popByte s = some (b, e, t) := by
  unfold popZero at h
  split at h
  · cases h
    exact ⟨_, ‹_›⟩
  · cases h

theorem popZero_empty {s : State} (h : s.count = 0) : popZero s = some (0x00#8, s) := by
  simp [popZero, popByte_empty h]

theorem popZero_of_set {s : State} {b : Byte} (hc : s.count ≠ 0) (hr : s.rd < s.params.capacity)
    (h : s.q.read s.rd = some b) : popZero s = some (b, s.consumeOne) := by
  simp [popZero, popByte_of_set hc hr h]

theorem popZero_poppedFrom {s t : State} {b : Byte} (h : popZero s = some (b, t)) : s.PoppedFrom t := by
  obtain ⟨e, he⟩ := popZero_cases h
  exact popByte_poppedFrom he

theorem popMany_cases {n : Nat} {s t : State} {bs : List Byte} (h : popMany n s = some (bs, t)) :
    (n = 0 ∧ bs = [] ∧ t = s) ∨
      ∃ m b cs u, n = m + 1 ∧ bs = b :: cs ∧ popZero s = some (b, u) ∧ popMany m u = some (cs, t) := by
  cases n with
  | zero =>
    cases h
    exact .inl ⟨rfl, rfl, rfl⟩
  | succ m =>
    unfold popMany at h
    split at h
    · cases h
    · split at h
      · cases h
      · cases h
        exact .inr ⟨m, _, _, _, rfl, rfl, ‹_›, ‹_›⟩

theorem popMany_poppedFrom {n : Nat} {s t : State} {bs : List Byte} (h : popMany n s = some (bs, t)) :
    s.PoppedFrom t := by
  induction n generalizing s bs with
  | zero =>
    cases h
    exact .refl _
  | succ m ih =>
    obtain ⟨h0, -⟩ | ⟨m', b, cs, u, hm, -, hb, hcs⟩ := popMany_cases h
    · cases h0
    · cases hm
      exact (popZero_poppedFrom hb).trans (ih hcs)

theorem consumeFrame_cases {s t : State} {p : Packet} (h : consumeFrame s = some (p, t)) :
    ∃ cmd lb body chk s1 s2 s3, popZero s = some (cmd, s1) ∧ popZero s1 = some (lb, s2) ∧
      popMany (payloadLength lb).toNat s2 = some (body, s3) ∧ popZero s3 = some (chk, t) ∧
      p = if validate cmd (payloadLength lb) body chk then .ok ⟨cmd, payloadLength lb, body, chk⟩
        else .bad ⟨cmd, payloadLength lb, body, chk⟩ := by
  unfold consumeFrame at h
  split at h
  · cases h
  · split at h
    · cases h
    · split at h
      · cases h
      · split at h
        · cases h
        · cases h
          exact ⟨_, _, _, _, _, _, _, ‹_›, ‹_›, ‹_›, ‹_›, rfl⟩

theorem consumeFrame_poppedFrom {s t : State} {p : Packet} (h : consumeFrame s = some (p, t)) : s.PoppedFrom t := by
  obtain ⟨_, _, _, _, _, _, _, h1, h2, h3, h4, -⟩ := consumeFrame_cases h
  exact (((popZero_poppedFrom h1).trans (popZero_poppedFrom h2)).trans (popMany_poppedFrom h3)).trans
    (popZero_poppedFrom h4)

/-- Everything PARSE can do (R161 to R167). -/
theorem parseFrame_cases {s t : State} {p : Packet} (h : parseFrame s = some (p, t)) :
    (s.count < 2 ∧ p = .incomplete ∧ t = s) ∨
      ∃ len u, 2 ≤ s.count ∧ readCell s (peekIndex s 1#8) = some (len, u) ∧
        ((u.count ≠ len.toNat ∧ p = .incomplete ∧ t = u) ∨
          (u.count = len.toNat ∧ consumeFrame u = some (p, t))) := by
  unfold parseFrame at h
  split at h
  · cases h
    exact .inl ⟨‹_›, rfl, rfl⟩
  · rename_i hc
    have hc : 2 ≤ s.count := by omega
    split at h
    · cases h
    · split at h
      · exact .inr ⟨_, _, hc, ‹_›, .inr ⟨‹_›, h⟩⟩
      · cases h
        exact .inr ⟨_, _, hc, ‹_›, .inl ⟨‹_›, rfl, rfl⟩⟩

theorem parseFrame_poppedFrom {s t : State} {p : Packet} (h : parseFrame s = some (p, t)) : s.PoppedFrom t := by
  obtain ⟨-, -, rfl⟩ | ⟨len, u, -, hr, ⟨-, -, rfl⟩ | ⟨-, hf⟩⟩ := parseFrame_cases h
  · exact .refl _
  · exact readCell_poppedFrom hr
  · exact (readCell_poppedFrom hr).trans (consumeFrame_poppedFrom hf)

/-! ## The common checks -/

theorem frozen_eq_false {s : State} : frozen s = false ↔ s.fault = .noFault := by
  simp [frozen]

theorem frozen_eq_true {s : State} : frozen s = true ↔ s.fault ≠ .noFault := by
  simp [frozen]

/-- While frozen only STAT is admitted (R203). -/
theorem admission_frozen {i : Instr} {s : State} (h : s.fault ≠ .noFault) (hi : i ≠ .stat) :
    admission i s = .refuse := by
  simp [admission, frozen_eq_true.mpr h, hi]

theorem admission_stat (s : State) : admission .stat s = .run := by
  unfold admission
  split <;> simp

/-- An operation but INIT in READY, no fault: only a SEND with too long a payload is stopped (R204, R205). -/
theorem admission_ready {i : Instr} {s : State} (hf : s.fault = .noFault) (hm : s.mode = .ready) (hi : i ≠ .init)
    (hs : ∀ cmd, i = .send cmd → s.argBytes.length ≤ maxPayload) : admission i s = .run := by
  unfold admission
  rw [frozen_eq_false.mpr hf]
  simp only [Bool.false_eq_true, if_false, hm, hi, ne_eq, not_false_eq_true, true_and, false_and, reduceCtorEq]
  split
  · rfl
  · cases i with
    | send cmd => simp [Nat.not_lt.mpr (hs cmd rfl)]
    | _ => rfl

theorem admission_init {s : State} (hf : s.fault = .noFault) (hm : s.mode = .uninit) :
    admission .init s = .run := by
  simp [admission, frozen_eq_false.mpr hf, hm]

theorem admission_reinit {s : State} (hf : s.fault = .noFault) (hm : s.mode = .ready) :
    admission .init s = .raise .reinit := by
  simp [admission, frozen_eq_false.mpr hf, hm]

theorem admission_notReady {i : Instr} {s : State} (hf : s.fault = .noFault) (hm : s.mode = .uninit) (hi : i ≠ .init)
    (hs : i ≠ .stat) : admission i s = .raise .notReady := by
  simp [admission, frozen_eq_false.mpr hf, hm, hi, hs]

theorem admission_tornDown {i : Instr} {s : State} (hf : s.fault = .noFault) (hm : s.mode = .tornDown)
    (hs : i ≠ .stat) : admission i s = .raise .tornDown := by
  simp [admission, frozen_eq_false.mpr hf, hm, hs]

theorem admission_argLength {cmd : Byte} {s : State} (hf : s.fault = .noFault) (hm : s.mode = .ready)
    (hl : maxPayload < s.argBytes.length) : admission (.send cmd) s = .raise .argLength := by
  simp [admission, frozen_eq_false.mpr hf, hm, hl]

/-- An operation that is admitted to run: STAT, or INIT in UNINIT, or another in READY; never frozen but for STAT. -/
theorem admission_run_cases {i : Instr} {s : State} (h : admission i s = .run) :
    i = .stat ∨ (s.fault = .noFault ∧ i = .init ∧ s.mode = .uninit) ∨
      (s.fault = .noFault ∧ i ≠ .init ∧ s.mode = .ready ∧
        ∀ cmd, i = .send cmd → s.argBytes.length ≤ maxPayload) := by
  by_cases hs : i = .stat
  · exact .inl hs
  · refine .inr ?_
    by_cases hf : s.fault = .noFault
    · cases hm : s.mode with
      | uninit =>
        by_cases hi : i = .init
        · exact .inl ⟨hf, hi, rfl⟩
        · rw [admission_notReady hf hm hi hs] at h
          cases h
      | tornDown =>
        rw [admission_tornDown hf hm hs] at h
        cases h
      | ready =>
        by_cases hi : i = .init
        · rw [hi, admission_reinit hf hm] at h
          cases h
        · refine .inr ⟨hf, hi, rfl, ?_⟩
          rintro cmd rfl
          by_contra hl
          rw [admission_argLength hf hm (by omega)] at h
          cases h
    · rw [admission_frozen hf hs] at h
      cases h

/-- The faults the checks raise, and in which mode (R201, R204). -/
theorem admission_raise_cases {i : Instr} {s : State} {code : FaultCode} (h : admission i s = .raise code) :
    s.fault = .noFault ∧
      ((code = .reinit ∧ s.mode = .ready) ∨ (code = .notReady ∧ s.mode = .uninit) ∨
        (code = .tornDown ∧ s.mode = .tornDown) ∨ (code = .argLength ∧ s.mode = .ready)) := by
  by_cases hs : i = .stat
  · rw [hs, admission_stat] at h
    cases h
  by_cases hf : s.fault = .noFault
  · refine ⟨hf, ?_⟩
    cases hm : s.mode with
    | uninit =>
      by_cases hi : i = .init
      · rw [hi, admission_init hf hm] at h
        cases h
      · rw [admission_notReady hf hm hi hs] at h
        cases h
        simp
    | tornDown =>
      rw [admission_tornDown hf hm hs] at h
      cases h
      simp
    | ready =>
      by_cases hi : i = .init
      · rw [hi, admission_reinit hf hm] at h
        cases h
        simp
      · by_cases hl : ∀ cmd, i = .send cmd → s.argBytes.length ≤ maxPayload
        · rw [admission_ready hf hm hi hl] at h
          cases h
        · push Not at hl
          obtain ⟨cmd, rfl, hl⟩ := hl
          rw [admission_argLength hf hm hl] at h
          cases h
          simp
  · rw [admission_frozen hf hs] at h
    cases h

theorem admission_refuse_frozen {i : Instr} {s : State} (h : admission i s = .refuse) : s.fault ≠ .noFault := by
  intro hf
  unfold admission at h
  rw [frozen_eq_false.mpr hf] at h
  simp only [Bool.false_eq_true, if_false] at h
  repeat' split at h
  all_goals cases h

theorem perform_run {i : Instr} {s : State} {body : State → StepOutcome} (h : admission i s = .run) :
    perform i s body = body s := by
  simp [perform, h]

theorem perform_raise {i : Instr} {s : State} {body : State → StepOutcome} {code : FaultCode}
    (h : admission i s = .raise code) : perform i s body = .next (s.raise code) := by
  simp [perform, h]

theorem perform_refuse {i : Instr} {s : State} {body : State → StepOutcome} (h : admission i s = .refuse) :
    perform i s body = .next s.refuse := by
  simp [perform, h]

/-! ## The inversion of `exec` -/

/-- The effect of an admitted operation, as a relation between the state before and after. -/
def Effect (i : Instr) (s t : State) : Prop :=
  match i with
  | .init => t = ({ s.emptyQueue with
      bound := true, brg := Config.brgOf s.argBaud, moduleEn := true, rxEn := true, txEn := true, lastRxMs := 0#32,
      mode := .ready } : State).deliver .ack
  | .tdown => t = ({ s with
      rxEn := false, txEn := false, moduleEn := false, brg := 0#16, bound := false, mode := .tornDown } :
        State).deliver .ack
  | .pop => ∃ b e u, popByte s = some (b, e, u) ∧ t = u.deliver (.byte b e)
  | .peek off => ∃ b u, readCell s (peekIndex s off) = some (b, u) ∧ t = u.deliver (.byte b false)
  | .flush => t = s.emptyQueue.deliver .ack
  | .stat => t = s.deliver (.status (statusRecord s))
  | .sendb => t = (s.transmit s.argBytes).deliver .ack
  | .parse => ∃ p u, parseFrame s = some (p, u) ∧ t = u.deliver (.packet p)
  | .send cmd => t = (s.transmit (sendFrame cmd s.argBytes)).deliver .ack

/-- Every operation refuses or raises as the checks say. -/
theorem exec_not_run (i : Instr) (s : State) :
    (admission i s = .refuse → exec i s = .next s.refuse) ∧
      ∀ code, admission i s = .raise code → exec i s = .next (s.raise code) := by
  constructor
  · intro h
    cases i <;> simp only [exec, execInit, execTdown, execPop, execPeek, execFlush, execStat, execSendb, execParse,
      execSend, perform_refuse h]
  · intro code h
    cases i <;> simp only [exec, execInit, execTdown, execPop, execPeek, execFlush, execStat, execSendb, execParse,
      execSend, perform_raise h]

theorem exec_refuse {i : Instr} {s : State} (h : admission i s = .refuse) : exec i s = .next s.refuse :=
  (exec_not_run i s).1 h

theorem exec_raise {i : Instr} {s : State} {code : FaultCode} (h : admission i s = .raise code) :
    exec i s = .next (s.raise code) :=
  (exec_not_run i s).2 code h

/-- An admitted operation answers a next state exactly where its effect says. -/
theorem exec_run {i : Instr} {s t : State} (h : admission i s = .run) : exec i s = .next t ↔ Effect i s t := by
  have hmap : ∀ {α : Type} (o : Option α) (f : α → State),
      orCellFault (o.map f) = .next t ↔ ∃ a, o = some a ∧ t = f a := by
    intro α o f
    cases o with
    | none => simp
    | some a => simp [eq_comm]
  cases i with
  | init => simp only [exec, execInit, perform_run h, Effect, Host.Outcome.next.injEq, eq_comm]
  | tdown => simp only [exec, execTdown, perform_run h, Effect, Host.Outcome.next.injEq, eq_comm]
  | flush => simp only [exec, execFlush, perform_run h, Effect, Host.Outcome.next.injEq, eq_comm]
  | stat => simp only [exec, execStat, perform_run h, Effect, Host.Outcome.next.injEq, eq_comm]
  | sendb => simp only [exec, execSendb, perform_run h, Effect, Host.Outcome.next.injEq, eq_comm]
  | send cmd => simp only [exec, execSend, perform_run h, Effect, Host.Outcome.next.injEq, eq_comm]
  | pop => simp only [exec, execPop, perform_run h, Effect, hmap, Prod.exists]
  | peek off => simp only [exec, execPeek, perform_run h, Effect, hmap, Prod.exists]
  | parse => simp only [exec, execParse, perform_run h, Effect, hmap, Prod.exists]

/-- Everything an operation can do: refused, a fault raised, or its own effect. -/
theorem exec_cases {i : Instr} {s t : State} (h : exec i s = .next t) :
    (admission i s = .refuse ∧ t = s.refuse) ∨ (∃ code, admission i s = .raise code ∧ t = s.raise code) ∨
      (admission i s = .run ∧ Effect i s t) := by
  cases ha : admission i s with
  | refuse =>
    rw [exec_refuse ha] at h
    cases h
    exact .inl ⟨rfl, rfl⟩
  | raise code =>
    rw [exec_raise ha] at h
    cases h
    exact .inr (.inl ⟨code, rfl, rfl⟩)
  | run => exact .inr (.inr ⟨rfl, (exec_run ha).mp h⟩)

/-! ## The agents -/

/-- Everything LINE can do (R110). -/
theorem lineStep_cases (r : RxRecord) (s : State) :
    lineStep r s = s ∨
      (lineListening s = true ∧ s.oerr = false ∧ s.hwRx.length = s.params.hwRxDepth ∧
        lineStep r s = { s with oerr := true }) ∨
      (lineListening s = true ∧ s.oerr = false ∧ s.hwRx.length ≠ s.params.hwRxDepth ∧
        lineStep r s = { s with hwRx := s.hwRx ++ [r] }) := by
  unfold lineStep
  by_cases h1 : lineListening s = true
  · by_cases h2 : s.oerr = true
    · simp [h1, h2]
    · have h2 : s.oerr = false := by simpa using h2
      by_cases h3 : s.hwRx.length = s.params.hwRxDepth
      · simp [h1, h2, h3, peripheralFull]
      · simp [h1, h2, h3, peripheralFull]
  · simp [h1]

/-- Where LINE takes records (R110). -/
theorem lineListening_iff (s : State) :
    lineListening s = true ↔ s.fault = .noFault ∧ s.mode = .ready ∧ s.moduleEn = true ∧ s.rxEn = true := by
  simp [lineListening, and_assoc]

/-- Where DRAIN has a step (R111). -/
theorem drainEnabled_iff (s : State) :
    drainEnabled s = true ↔ s.fault = .noFault ∧ s.mode = .ready ∧ 0 < s.hwRx.length := by
  simp [drainEnabled, dataAvailable, and_assoc]

/-- Everything DRAIN can do (R111, R112). -/
theorem drainStep_cases {now : Millis} {s t : State} (h : drainStep now s = .next t) :
    (drainEnabled s = false ∧ t = s) ∨
      ∃ r rest, drainEnabled s = true ∧ s.hwRx = r :: rest ∧
        ((s.count < s.params.capacity ∧ recordClean r = true ∧ s.wr < s.params.capacity ∧
            t = ({ s.takeRecord rest with q := s.q.write s.wr r.b } : State).appendOne now) ∨
          (¬ (s.count < s.params.capacity ∧ recordClean r = true) ∧ t = s.takeRecord rest)) := by
  unfold drainStep at h
  split at h
  · rename_i he
    refine .inr ?_
    split at h
    · rename_i hn
      have := (drainEnabled_iff s).mp he
      simp [hn] at this
    · rename_i r rest hr
      refine ⟨r, rest, he, hr, ?_⟩
      split at h
      · rename_i hk
        have hk : s.count < s.params.capacity ∧ recordClean r = true := by simpa [bufferHasRoom] using hk
        have h := orCellFault_next h
        obtain ⟨u, hu, rfl⟩ := Option.map_eq_some_iff.mp h
        obtain ⟨hw, rfl⟩ := writeCell_cases hu
        exact .inl ⟨hk.1, hk.2, hw, rfl⟩
      · rename_i hk
        cases h
        exact .inr ⟨by simpa [bufferHasRoom] using hk, rfl⟩
  · rename_i he
    cases h
    exact .inl ⟨by simpa using he, rfl⟩

/-- Everything a CTRL step can do (R205). -/
theorem ctrlStep_cases {cw : Word} {baud : Baud} {bytes : List Byte} {s t : State}
    (h : ctrlStep cw baud bytes s = .next t) :
    bytes.length ≤ maxArg ∧
      ((∃ i, decode cw = .ok i ∧ exec i (s.present baud bytes) = .next t) ∨
        (∃ e, decode cw = .error e ∧ t = illegalWord (s.present baud bytes))) := by
  unfold ctrlStep at h
  split at h
  · rename_i hb
    refine ⟨by simpa [argBytesWellFormed] using hb, ?_⟩
    split at h
    · exact .inl ⟨_, ‹_›, h⟩
    · cases h
      exact .inr ⟨_, ‹_›, rfl⟩
  · cases h

/-- Everything a step can do (R10, R66). -/
theorem step_cases {s t : State} (h : step s = .next t) :
    (s.schedule = [] ∧ t = s) ∨
      ∃ e rest, s.schedule = e :: rest ∧ agentStep e { s with schedule := rest } = .next t := by
  unfold step at h
  split at h
  · cases h
    exact .inl ⟨‹_›, rfl⟩
  · exact .inr ⟨_, _, ‹_›, h⟩

/-- Everything an agent's step can do. -/
theorem agentStep_cases {e : Event} {s t : State} (h : agentStep e s = .next t) :
    (∃ r, e = .line r ∧ t = lineStep r s) ∨ (∃ now, e = .drain now ∧ drainStep now s = .next t) ∨
      (∃ cw baud bytes, e = .ctrl cw baud bytes ∧ ctrlStep cw baud bytes s = .next t) ∨
      (e = .reset ∧ t = s.physicalReset) := by
  cases e with
  | line r =>
    cases h
    exact .inl ⟨r, rfl, rfl⟩
  | drain now => exact .inr (.inl ⟨now, rfl, h⟩)
  | ctrl cw baud bytes => exact .inr (.inr (.inl ⟨cw, baud, bytes, rfl, h⟩))
  | reset =>
    cases h
    exact .inr (.inr (.inr ⟨rfl, rfl⟩))

end Sys2Proof.Machine
end

