-- ==== Sys2Proof/Laws/Queue.lean ====
section
/-! SUPPORT. The queue the cursors describe (10_state.md R40): what an append, a pop and a run of pops do to it, and
the frame PARSE consumes. -/

namespace Sys2Proof.Machine

/-! ## Cursor arithmetic -/

/-- Places at most N - 1 apart from one cursor are different cells. -/
theorem cell_inj {n rd i j : Nat} (hi : i < n) (hj : j < n) (h : (rd + i) % n = (rd + j) % n) : i = j := by
  have hmod : i % n = j % n := (Nat.ModEq.add_left_cancel' rd (show (rd + i) ≡ (rd + j) [MOD n] from h))
  rwa [Nat.mod_eq_of_lt hi, Nat.mod_eq_of_lt hj] at hmod

theorem cell_shift (n rd k i : Nat) : ((rd + k) % n + i) % n = (rd + (k + i)) % n := by
  rw [Nat.mod_add_mod, Nat.add_assoc]

/-! ## The queue as a list -/

@[simp] theorem State.queue_length (s : State) : s.queue.length = s.count := by simp [State.queue]

theorem State.queue_getElem? (s : State) (i : Nat) :
    s.queue[i]? = if i < s.count then some (s.cellAhead i) else none := by
  simp only [State.queue, List.getElem?_map]
  split
  · rename_i h
    simp [List.getElem?_range h]
  · rename_i h
    simp [h]

/-- The cells ahead and the count decide the queue. -/
theorem State.queue_ext {s t : State} (hc : s.count = t.count) (h : ∀ i, i < s.count → s.cellAhead i = t.cellAhead i) :
    s.queue = t.queue := by
  unfold State.queue
  rw [hc]
  exact List.map_congr_left fun i hi => h i (hc ▸ List.mem_range.mp hi)

theorem State.queue_eq_nil {s : State} : s.queue = [] ↔ s.count = 0 := by
  rw [← List.length_eq_zero_iff, State.queue_length]

/-- What the queue holds at a place is the cell so far ahead. -/
theorem State.cellAhead_of_queue {s : State} {bs : List Byte} (h : s.queue = bs.map some) {i : Nat}
    (hi : i < bs.length) : s.cellAhead i = some bs[i] := by
  have hc : s.count = bs.length := by rw [← s.queue_length, h, List.length_map]
  have := s.queue_getElem? i
  rw [h, if_pos (by omega)] at this
  simpa [hi, eq_comm] using this

theorem State.count_of_queue {s : State} {bs : List Byte} (h : s.queue = bs.map some) : s.count = bs.length := by
  rw [← s.queue_length, h, List.length_map]

/-! ## A pop -/

theorem State.cellAhead_consumeOne (s : State) (i : Nat) : s.consumeOne.cellAhead i = s.cellAhead (i + 1) := by
  simp only [State.cellAhead, State.consumeOne_q, State.consumeOne_rd, State.consumeOne_params, advance]
  rw [cell_shift, Nat.add_comm 1 i]

theorem State.cellAhead_zero {s : State} (h : s.rd < s.params.capacity) : s.cellAhead 0 = s.q.read s.rd := by
  simp [State.cellAhead, Nat.mod_eq_of_lt h]

theorem State.queue_consumeOne (s : State) : s.consumeOne.queue = s.queue.tail := by
  apply List.ext_getElem?
  intro i
  rw [List.getElem?_tail, State.queue_getElem?, State.queue_getElem?, State.cellAhead_consumeOne]
  have hc : s.consumeOne.count = s.count - 1 := rfl
  by_cases h : i < s.count - 1
  · rw [if_pos (by omega), if_pos (by omega)]
  · rw [if_neg (by omega), if_neg (by omega)]

theorem State.consumeOne_rd_lt {s : State} (h : s.rd < s.params.capacity) :
    s.consumeOne.rd < s.consumeOne.params.capacity :=
  advance_lt _ (by omega)

/-- The state after `n` bytes have been consumed. -/
def State.consumeMany (s : State) (n : Nat) : State :=
  { s with rd := (s.rd + n) % s.params.capacity, count := s.count - n }

theorem State.consumeMany_zero {s : State} (h : s.rd < s.params.capacity) : s.consumeMany 0 = s := by
  simp [State.consumeMany, Nat.mod_eq_of_lt h]

theorem State.consumeOne_consumeMany (s : State) (n : Nat) : s.consumeOne.consumeMany n = s.consumeMany (n + 1) := by
  simp only [State.consumeMany, State.consumeOne, advance, cell_shift, Nat.add_comm 1 n]
  congr 1
  omega

theorem State.consumeOne_eq (s : State) : s.consumeOne = s.consumeMany 1 := rfl

/-- A pop of a queue that is not empty takes its head. -/
theorem popZero_of_queue {s : State} {b : Byte} {tail : List (Option Byte)} (hr : s.rd < s.params.capacity)
    (h : s.queue = some b :: tail) : popZero s = some (b, s.consumeOne) := by
  have hc : s.count ≠ 0 := by
    intro h0
    rw [State.queue_eq_nil.mpr h0] at h
    cases h
  have h0 := s.queue_getElem? 0
  rw [h, if_pos (by omega), State.cellAhead_zero hr] at h0
  exact popZero_of_set hc hr (by simpa [eq_comm] using h0)

/-- A run of pops takes the queue's first bytes in order (R165). -/
theorem popMany_of_queue {s : State} {bs : List Byte} {tail : List (Option Byte)} (hr : s.rd < s.params.capacity)
    (h : s.queue = bs.map some ++ tail) : popMany bs.length s = some (bs, s.consumeMany bs.length) := by
  induction bs generalizing s with
  | nil => simp [popMany, State.consumeMany_zero hr]
  | cons b bs ih =>
    have hp : popZero s = some (b, s.consumeOne) := popZero_of_queue hr h
    have hq : s.consumeOne.queue = bs.map some ++ tail := by rw [State.queue_consumeOne, h]; rfl
    have := ih (State.consumeOne_rd_lt hr) hq
    simp only [List.length_cons, popMany, hp, this, State.consumeOne_consumeMany]

/-- The frame a completed PARSE consumes, from a queue that holds exactly it (R163 to R167). -/
theorem consumeFrame_of_queue {s : State} {cmd len : Byte} {payload : List Byte} (hr : s.rd < s.params.capacity)
    (h : s.queue = (cmd :: len :: payload).map some) (hlen : len.toNat = payload.length + 2) :
    consumeFrame s =
      some (if validate cmd (len - 2#8) payload 0x00#8 then .ok ⟨cmd, len - 2#8, payload, 0x00#8⟩
        else .bad ⟨cmd, len - 2#8, payload, 0x00#8⟩, s.consumeMany (payload.length + 2)) := by
  have hk : (payloadLength len).toNat = payload.length := by
    have := len.isLt
    simp only [payloadLength, BitVec.toNat_sub, BitVec.toNat_ofNat]
    omega
  have h1 : popZero s = some (cmd, s.consumeOne) := popZero_of_queue hr h
  have q1 : s.consumeOne.queue = (len :: payload).map some := by rw [State.queue_consumeOne, h]; rfl
  have r1 := State.consumeOne_rd_lt hr
  have h2 : popZero s.consumeOne = some (len, s.consumeOne.consumeOne) := popZero_of_queue r1 q1
  have q2 : s.consumeOne.consumeOne.queue = payload.map some ++ [] := by
    rw [State.queue_consumeOne, q1]
    simp
  have r2 := State.consumeOne_rd_lt r1
  have h3 := popMany_of_queue r2 q2
  have hm : s.consumeOne.consumeOne.consumeMany payload.length = s.consumeMany (payload.length + 2) := by
    rw [State.consumeOne_consumeMany, State.consumeOne_consumeMany]
  have hc : (s.consumeMany (payload.length + 2)).count = 0 := by
    have := State.count_of_queue h
    simp only [State.consumeMany]
    simp at this
    omega
  have h4 : popZero (s.consumeMany (payload.length + 2)) = some (0x00#8, s.consumeMany (payload.length + 2)) :=
    popZero_empty hc
  rw [hm] at h3
  simp only [consumeFrame, h1, h2, hk, h3, h4]
  rfl

/-- PARSE of a queue that holds exactly the declared frame (R161 to R167). -/
theorem parseFrame_of_queue {s : State} {cmd len : Byte} {payload : List Byte} (hr : s.rd < s.params.capacity)
    (h : s.queue = (cmd :: len :: payload).map some) (hlen : len.toNat = payload.length + 2) :
    parseFrame s = consumeFrame s := by
  have hc : s.count = payload.length + 2 := by simpa using State.count_of_queue h
  have h1 : s.cellAhead 1 = some len := State.cellAhead_of_queue h (i := 1) (by simp)
  have hrd : readCell s (peekIndex s 1#8) = some (len, s) := readCell_of_set (peekIndex_lt 1#8 (by omega)) h1
  unfold parseFrame
  rw [if_neg (by omega), hrd]
  simp only [hc, hlen, if_true]

/-- PARSE where one of its guards stops it (R161, R162): nothing is read that was not written, nothing changes. -/
theorem parseFrame_incomplete {s : State} {len : Byte} (hN : 0 < s.params.capacity) (h1 : s.cellAhead 1 = some len)
    (hne : s.count ≠ len.toNat) : parseFrame s = some (.incomplete, s) := by
  have hrd : readCell s (peekIndex s 1#8) = some (len, s) := readCell_of_set (peekIndex_lt 1#8 hN) h1
  unfold parseFrame
  split
  · rfl
  · rw [hrd]
    simp only [hne, if_false]

/-! ## An append -/

/-- The state after DRAIN appends a byte. -/
def State.appendByte (s : State) (b : Byte) (now : Millis) : State :=
  ({ s with q := s.q.write s.wr b } : State).appendOne now

theorem State.cellAhead_appendByte {s : State} (b : Byte) (now : Millis) (hw : s.wr = (s.rd + s.count) % s.params.capacity)
    (hc : s.count < s.params.capacity) {i : Nat} (hi : i < s.params.capacity) :
    (s.appendByte b now).cellAhead i = if i = s.count then some b else s.cellAhead i := by
  show ((s.q.write s.wr b).read ((s.rd + i) % s.params.capacity)) = _
  rw [Memory.read_write, hw]
  by_cases h : i = s.count
  · simp [h]
  · have : (s.rd + i) % s.params.capacity ≠ (s.rd + s.count) % s.params.capacity := fun he => h (cell_inj hi hc he)
    simp [this, h, State.cellAhead]

/-- An append puts the byte at the end of the queue. -/
theorem State.queue_appendByte {s : State} (b : Byte) (now : Millis) (hw : s.wr = (s.rd + s.count) % s.params.capacity)
    (hc : s.count < s.params.capacity) : (s.appendByte b now).queue = s.queue ++ [some b] := by
  have hcount : (s.appendByte b now).count = s.count + 1 := rfl
  apply List.ext_getElem?
  intro i
  rw [List.getElem?_append, State.queue_getElem?, State.queue_getElem?, State.queue_length, hcount]
  by_cases h : i < s.count
  · rw [if_pos (by omega), if_pos h, if_pos h, State.cellAhead_appendByte b now hw hc (by omega), if_neg (by omega)]
  · rw [if_neg h]
    by_cases he : i = s.count
    · rw [if_pos (by omega), State.cellAhead_appendByte b now hw hc (by omega), if_pos he]
      simp [he]
    · rw [if_neg (by omega)]
      have : i - s.count ≠ 0 := by omega
      simp [this]

end Sys2Proof.Machine
end

