-- ==== Sys2Proof/Laws/Invariant.lean ====
section
/-! SUPPORT. What the invariant gives of the queue, how the named updates keep it, and induction over a run. -/

namespace Sys2Proof.Machine

/-- Under the invariant the queue holds bytes, no unset cell (R30, R40). -/
theorem State.Inv.queue_bytes {s : State} (h : s.Inv) : ∃ bs : List Byte, s.queue = bs.map some := by
  have key : ∀ l : List (Option Byte), (∀ x ∈ l, x.isSome = true) → ∃ bs : List Byte, l = bs.map some := by
    intro l
    induction l with
    | nil => exact fun _ => ⟨[], rfl⟩
    | cons a l ih =>
      intro hl
      obtain ⟨bs, rfl⟩ := ih fun x hx => hl x (List.mem_cons_of_mem _ hx)
      obtain ⟨b, rfl⟩ := Option.isSome_iff_exists.mp (hl a (List.mem_cons_self ..))
      exact ⟨b :: bs, rfl⟩
  refine key s.queue fun x hx => ?_
  obtain ⟨i, hi, rfl⟩ := List.mem_map.mp hx
  exact h.queue_set i (List.mem_range.mp hi)

/-- The cursors where everything buffered has been consumed (R40, R168). -/
theorem State.Inv.consume_all {s : State} (h : s.Inv) : s.consumeMany s.count = { s with rd := s.wr, count := 0 } := by
  unfold State.consumeMany
  rw [← h.cursors, Nat.sub_self]

theorem State.Inv.deliver {s : State} (h : s.Inv) (r : Result) : (s.deliver r).Inv := { h with }

theorem State.Inv.countDraw {s : State} (h : s.Inv) : s.countDraw.Inv := { h with }

theorem State.Inv.present {s : State} (h : s.Inv) (baud : Baud) {bytes : List Byte} (hb : bytes.length ≤ maxArg) :
    (s.present baud bytes).Inv := { h with arg_bytes := hb }

theorem State.Inv.withSchedule {s : State} (h : s.Inv) (es : List Event) : State.Inv { s with schedule := es } :=
  { h with }

theorem State.Inv.transmit {s : State} (h : s.Inv) (hm : s.mode ≠ .uninit) (bytes : List Byte) :
    (s.transmit bytes).Inv := { h with fresh := fun hu => absurd hu hm }

theorem State.Inv.emptyQueue {s : State} (h : s.Inv) (hm : s.mode ≠ .uninit) : s.emptyQueue.Inv :=
  { h with
    rd_lt := h.capacity_pos
    wr_lt := h.capacity_pos
    count_le := Nat.zero_le _
    cursors := by simp
    queue_set := fun i hi => absurd hi (Nat.not_lt_zero i)
    fresh := fun hu => absurd hu hm }

theorem State.Inv.consumeMany {s : State} (h : s.Inv) (hm : s.mode ≠ .uninit) {n : Nat} (hn : n ≤ s.count) :
    (s.consumeMany n).Inv :=
  { h with
    rd_lt := Nat.mod_lt _ h.capacity_pos
    count_le := (Nat.sub_le _ _).trans h.count_le
    cursors := by
      show s.wr = ((s.rd + n) % s.params.capacity + (s.count - n)) % s.params.capacity
      rw [cell_shift, h.cursors, Nat.add_sub_cancel' hn]
    queue_set := by
      intro i hi
      have hi : i < s.count - n := hi
      have hset := h.queue_set (n + i) (by omega)
      simpa [State.cellAhead, State.consumeMany, Nat.add_assoc] using hset
    fresh := fun hu => absurd hu hm }

theorem State.Inv.takeRecord {s : State} (h : s.Inv) (hm : s.mode ≠ .uninit) {r : RxRecord} {rest : List RxRecord}
    (hr : s.hwRx = r :: rest) : (s.takeRecord rest).Inv :=
  { h with
    hw_len := by
      have hlen := h.hw_len
      rw [hr, List.length_cons] at hlen
      exact Nat.le_of_succ_le hlen
    oerr_full := fun ho => absurd ho (by simp)
    fresh := fun hu => absurd hu hm }

theorem State.Inv.appendByte {s : State} (h : s.Inv) (hm : s.mode ≠ .uninit) (hc : s.count < s.params.capacity)
    (b : Byte) (now : Millis) : (s.appendByte b now).Inv :=
  { h with
    mem_wf := Memory.write_wf _ _ _ h.mem_wf
    mem_range := Memory.write_range _ _ _ _ h.wr_lt h.mem_range
    wr_lt := Nat.mod_lt _ h.capacity_pos
    count_le := hc
    cursors := by
      show (s.wr + 1) % s.params.capacity = (s.rd + (s.count + 1)) % s.params.capacity
      rw [h.cursors, cell_shift]
    queue_set := by
      intro i hi
      have hi : i < s.count + 1 := hi
      rw [State.cellAhead_appendByte b now h.cursors hc (by omega)]
      split
      · rfl
      · exact h.queue_set i (by omega)
    fresh := fun hu => absurd hu hm }

/-- Induction over a run: what every step of the schedule keeps holds at its end. -/
theorem runEvents_induction (P : State → Prop) {es : List Event}
    (hstep : ∀ e ∈ es, ∀ s t, P s → agentStep e s = .next t → P t) {s t : State} (hs : P s)
    (h : runEvents es s = some t) : P t := by
  induction es generalizing s with
  | nil =>
    cases h
    exact hs
  | cons e es ih =>
    unfold runEvents at h
    split at h
    · rename_i u hu
      exact ih (fun e' he' => hstep e' (List.mem_cons_of_mem _ he')) (hstep e (List.mem_cons_self ..) s u hs hu) h
    · cases h
    · cases h

/-- An admitted operation never changes `fault`. -/
theorem Effect.fault_eq {i : Instr} {s t : State} (h : Effect i s t) : t.fault = s.fault := by
  cases i with
  | pop =>
    obtain ⟨_, _, _, hp, rfl⟩ := h
    obtain ⟨_, _, _, rfl⟩ := popByte_poppedFrom hp
    rfl
  | peek off =>
    obtain ⟨_, _, hp, rfl⟩ := h
    obtain ⟨_, _, _, rfl⟩ := readCell_poppedFrom hp
    rfl
  | parse =>
    obtain ⟨_, _, hp, rfl⟩ := h
    obtain ⟨_, _, _, rfl⟩ := parseFrame_poppedFrom hp
    rfl
  | _ =>
    cases h
    rfl

end Sys2Proof.Machine
end

