-- ==== Sys2Proof/Laws/PerInstr.lean ====
section
/-! SUPPORT. Statements made per instruction: the word of every operation is legal in the sense of 30_encoding.md R84,
whose cases `illegal` lists apart from the decoder. -/

namespace Sys2Proof.Laws

/-- The word of an operation is not illegal, and its fields are the operation's (R80 to R84). -/
def LegalWord.Statement (i : Instr) : Prop :=
  illegal (encode i) = false ∧ opField (encode i) = opcodeOf i ∧ imm8Field (encode i) = operandOf i

theorem LegalWord.init : LegalWord.Statement .init := by
  simp [LegalWord.Statement, illegal, opcodeOf, operandOf]

theorem LegalWord.tdown : LegalWord.Statement .tdown := by
  simp [LegalWord.Statement, illegal, opcodeOf, operandOf]

theorem LegalWord.pop : LegalWord.Statement .pop := by
  simp [LegalWord.Statement, illegal, opcodeOf, operandOf]

theorem LegalWord.peek (off : Byte) : LegalWord.Statement (.peek off) := by
  simp [LegalWord.Statement, illegal, opcodeOf, operandOf]

theorem LegalWord.flush : LegalWord.Statement .flush := by
  simp [LegalWord.Statement, illegal, opcodeOf, operandOf]

theorem LegalWord.stat : LegalWord.Statement .stat := by
  simp [LegalWord.Statement, illegal, opcodeOf, operandOf]

theorem LegalWord.sendb : LegalWord.Statement .sendb := by
  simp [LegalWord.Statement, illegal, opcodeOf, operandOf]

theorem LegalWord.parse : LegalWord.Statement .parse := by
  simp [LegalWord.Statement, illegal, opcodeOf, operandOf]

theorem LegalWord.send (cmd : Byte) : LegalWord.Statement (.send cmd) := by
  simp [LegalWord.Statement, illegal, opcodeOf, operandOf]

end Sys2Proof.Laws
end

