-- ==== Sys2Proof/Laws/Unread.lean ====
section
/-! SUPPORT. The fields no operation but STAT reads (R26, R31, R35): the storage operations commute with setting them. -/

namespace Sys2Proof.Machine

/-- The state with another divisor, another time stamp and another transmit history. -/
def State.withUnread (s : State) (brg : BitVec 16) (time : Millis) (sent : List Byte) : State :=
  { s with brg := brg, lastRxMs := time, txOut := sent }

variable {brg : BitVec 16} {time : Millis} {sent : List Byte}

theorem State.withUnread_self (s : State) : s.withUnread s.brg s.lastRxMs s.txOut = s := rfl

theorem admission_withUnread (i : Instr) (s : State) :
    admission i (s.withUnread brg time sent) = admission i s := by
  cases i <;> rfl

theorem readCell_withUnread (s : State) (i : Nat) : readCell (s.withUnread brg time sent) i =
    (readCell s i).map fun (b, u) => (b, u.withUnread brg time sent) := by
  unfold readCell
  rw [show (s.withUnread brg time sent).params = s.params from rfl, show (s.withUnread brg time sent).q = s.q from rfl]
  by_cases hi : i < s.params.capacity
  · simp only [hi, if_true]
    cases s.q.read i <;> rfl
  · simp only [hi, if_false]
    rfl

theorem popByte_withUnread (s : State) : popByte (s.withUnread brg time sent) =
    (popByte s).map fun (b, empty, u) => (b, empty, u.withUnread brg time sent) := by
  unfold popByte
  rw [show (s.withUnread brg time sent).count = s.count from rfl]
  split
  · rfl
  · rw [show (s.withUnread brg time sent).rd = s.rd from rfl, readCell_withUnread]
    cases readCell s s.rd <;> rfl

theorem popZero_withUnread (s : State) : popZero (s.withUnread brg time sent) =
    (popZero s).map fun (b, u) => (b, u.withUnread brg time sent) := by
  unfold popZero
  rw [popByte_withUnread]
  cases popByte s <;> rfl

theorem popMany_withUnread (n : Nat) (s : State) : popMany n (s.withUnread brg time sent) =
    (popMany n s).map fun (bs, u) => (bs, u.withUnread brg time sent) := by
  induction n generalizing s with
  | zero => rfl
  | succ n ih =>
    unfold popMany
    rw [popZero_withUnread]
    cases popZero s with
    | none => rfl
    | some p =>
      simp only [Option.map_some, ih]
      cases popMany n p.2 <;> rfl

theorem consumeFrame_withUnread (s : State) : consumeFrame (s.withUnread brg time sent) =
    (consumeFrame s).map fun (p, u) => (p, u.withUnread brg time sent) := by
  unfold consumeFrame
  rw [popZero_withUnread]
  cases popZero s with
  | none => rfl
  | some c =>
    simp only [Option.map_some, popZero_withUnread]
    cases popZero c.2 with
    | none => rfl
    | some l =>
      simp only [Option.map_some, popMany_withUnread]
      cases popMany _ l.2 with
      | none => rfl
      | some p =>
        simp only [Option.map_some, popZero_withUnread]
        cases popZero p.2 <;> rfl

theorem parseFrame_withUnread (s : State) : parseFrame (s.withUnread brg time sent) =
    (parseFrame s).map fun (p, u) => (p, u.withUnread brg time sent) := by
  unfold parseFrame
  rw [show (s.withUnread brg time sent).count = s.count from rfl,
    show peekIndex (s.withUnread brg time sent) 1#8 = peekIndex s 1#8 from rfl, readCell_withUnread]
  split
  · rfl
  · cases readCell s (peekIndex s 1#8) with
    | none => rfl
    | some p =>
      simp only [Option.map_some, consumeFrame_withUnread]
      rw [show (p.2.withUnread brg time sent).count = p.2.count from rfl]
      split <;> rfl

end Sys2Proof.Machine
end

