-- ==== Sys2Proof/Tests/Slice0.lean ====
section
/-! SUPPORT. The model's own tests: the well-formedness smoke test, words written out from 30_encoding.md, single steps
checked against 95_test_vectors.md, and for every statement with hypotheses a state that meets them. -/

namespace Sys2Proof.Tests

open Sys2Proof.Machine

/-! ## States to test on -/

/-- Cells `i, i + 1, ...` (modulo n) holding the bytes. -/
def fill (n : Nat) : Memory → Nat → List Byte → Memory
  | m, _, [] => m
  | m, i, b :: bs => fill n (m.write (i % n) b) (i + 1) bs

/-- `n` times the byte. -/
def many (n : Nat) (b : Byte) : List Byte := List.replicate n b
@[simp] theorem many_length (n : Nat) (b : Byte) : (many n b).length = n := List.length_replicate
theorem many_all (n : Nat) {b : Byte} (hb : b ≠ 0#8) : (many n b).all (· ≠ 0#8) = true := by
  simp only [many, List.all_eq_true, List.mem_replicate]
  rintro _ ⟨_, rfl⟩
  exact decide_eq_true hb

/-- The reset state of a block with N = n and HW_RX_DEPTH = 1. -/
def resetState (n : Nat) : State := { State.reset with params := ⟨n, 1⟩ }

/-- READY with capacity n, the bytes buffered from the cursor on. -/
def ready (n rd : Nat) (bytes : List Byte) : State :=
  { resetState n with
    mode := .ready, bound := true, moduleEn := true, rxEn := true, txEn := true, brg := 0x0007#16,
    q := fill n [] rd bytes, rd := rd, wr := (rd + bytes.length) % n, count := bytes.length }

/-- READY with N = 8 and one record held by the peripheral. -/
def holding (r : RxRecord) (bytes : List Byte) : State := { ready 8 0 bytes with hwRx := [r] }

/-- TORN_DOWN with N = 8 and three bytes left (T28). -/
def torn : State :=
  { ready 8 0 [0x01#8, 0x02#8, 0x03#8] with
    mode := .tornDown, bound := false, moduleEn := false, rxEn := false, txEn := false, brg := 0#16 }

/-- READY, frozen by an illegal word (T72). -/
def frozenReady : State := { ready 8 0 [0x41#8] with fault := .illegalOp }

/-- A block frozen before INIT (P5). -/
def frozenUninit : State := { resetState 8 with fault := .notReady }

/-- The state after a step that answers one, and the state itself where it does not. -/
def after (o : StepOutcome) (s : State) : State :=
  match o with
  | .next t => t
  | .fault _ => s
  | .refused _ => s

/-- The last result record of a step. -/
def resultOf (o : StepOutcome) : Option Result :=
  match o with
  | .next t => t.results.getLast?
  | .fault _ => none
  | .refused _ => none

/-! ## Well-formedness: an ill-formed term for each check -/

theorem test_argBytes_256_refused : argBytesWellFormed (many 256 0#8) = false := by
  simp [argBytesWellFormed, maxArg]
theorem test_argBytes_255_accepted : argBytesWellFormed (many 255 0#8) = true := by
  simp [argBytesWellFormed, maxArg]
theorem test_text_253_refused : textWellFormed (many 253 0x41#8) = false := by simp [textWellFormed]
theorem test_text_with_null_refused : textWellFormed [0x4F#8, 0x00#8] = false := by decide
theorem test_text_252_accepted : textWellFormed (many 252 0x41#8) = true := by
  rw [textWellFormed, many_all 252 (by decide), many_length]
  decide
theorem test_sendb_line_refused : (AsmLine.sendb (many 256 0#8)).wellFormed = false := by
  simp [AsmLine.wellFormed, argBytesWellFormed, maxArg]
theorem test_send_line_refused : (AsmLine.send 0x10#8 (many 256 0#8)).wellFormed = false := by
  simp [AsmLine.wellFormed, argBytesWellFormed, maxArg]
theorem test_sends_line_refused : (AsmLine.sends 0x10#8 [0x00#8]).wellFormed = false := by decide
theorem test_event_refused : Event.wellFormed (.ctrl 0x7000#16 0#32 (many 256 0#8)) = false := by
  simp [Event.wellFormed, argBytesWellFormed, maxArg]
theorem test_memory_out_of_order_refused : Memory.wf [(2, 0x01#8), (1, 0x02#8)] = false := by decide
theorem test_memory_repeated_refused : Memory.wf [(1, 0x01#8), (1, 0x02#8)] = false := by decide

/-! ## Words written out from the encoding (R80, R81): op, rsv, imm8 -/

theorem test_decode_init : decode 0b0001000000000000#16 = .ok .init := by decide
theorem test_decode_tdown : decode 0b0010000000000000#16 = .ok .tdown := by decide
theorem test_decode_pop : decode 0b0011000000000000#16 = .ok .pop := by decide
theorem test_decode_peek : decode 0b0100000010000001#16 = .ok (.peek 0x81#8) := by decide
theorem test_decode_flush : decode 0b0101000000000000#16 = .ok .flush := by decide
theorem test_decode_stat : decode 0b0110000000000000#16 = .ok .stat := by decide
theorem test_decode_sendb : decode 0b0111000000000000#16 = .ok .sendb := by decide
theorem test_decode_parse : decode 0b1000000000000000#16 = .ok .parse := by decide
theorem test_decode_send : decode 0b1001000001000010#16 = .ok (.send 0x42#8) := by decide
/-- T60 to T68. -/
theorem test_decode_illegal_words :
    [0x0000#16, 0xA000#16, 0xF0FF#16, 0x3100#16, 0x3001#16, 0x6001#16, 0x1001#16, 0x4F01#16, 0x9800#16].all
      (fun w => illegal w && !(decode w).isOk) = true := by decide
theorem test_decodeTableWord_peek : decodeTableWord 16 0x40FF = some (.peek 0xFF#8) := by decide
theorem test_decodeTableWord_reserved : decodeTableWord 16 0xA000 = none := by decide
/-- T69: POP as the first operation after reset raises NOT_READY. -/
theorem test_first_step_pop : (after (step (State.reset.withFetchWord 16 0x3000)) State.reset).fault = .notReady := by
  decide
/-- INIT as the first operation after reset. -/
theorem test_first_step_init : (after (step (State.reset.withFetchWord 16 0x1000)) State.reset).mode = .ready := by
  decide

/-! ## Single steps, against 95_test_vectors.md -/

/-- T25. -/
theorem test_init_ready :
    (after (exec .init (resetState 8)) torn).mode = .ready ∧ (after (exec .init (resetState 8)) torn).rxEn = true := by
  decide
/-- T26. -/
theorem test_init_again : resultOf (exec .init (ready 8 0 [])) = some (.fault 4#3) := by decide
/-- T28. -/
theorem test_tdown_keeps_the_queue :
    after (exec .tdown (ready 8 0 [0x01#8, 0x02#8, 0x03#8])) torn = { torn with results := [.ack] } := by decide
/-- T32. -/
theorem test_tdown_again : resultOf (exec .tdown torn) = some (.fault 3#3) := by decide
/-- T14: the read cursor wraps. -/
theorem test_pop_wraps :
    resultOf (exec .pop (ready 8 7 [0x5A#8, 0x5B#8])) = some (.byte 0x5A#8 false) ∧
      (after (exec .pop (ready 8 7 [0x5A#8, 0x5B#8])) torn).rd = 0 := by decide
/-- T12. -/
theorem test_pop_empty : resultOf (exec .pop (ready 8 0 [])) = some (.byte 0x00#8 true) := by decide
/-- T17 and T19: a stale byte, through an index that wraps. -/
theorem test_peek_stale :
    resultOf (exec (.peek 0xFF#8) { ready 4 1 [0x0B#8] with q := [(0, 0x0A#8), (1, 0x0B#8)] }) =
      some (.byte 0x0A#8 false) := by decide
/-- T16: an unset cell is a draw. -/
theorem test_peek_unset : resultOf (exec (.peek 2#8) (ready 4 0 [0x0A#8, 0x0B#8])) = some (.byte (Config.draw 0) false) :=
  rfl
/-- T21. -/
theorem test_flush :
    after (exec .flush { ready 8 3 [0x04#8, 0x05#8, 0x06#8] with lastRxMs := 5#32 }) torn =
      { ready 8 3 [0x04#8, 0x05#8, 0x06#8] with
        lastRxMs := 5#32, rd := 0, wr := 0, count := 0, results := [.ack] } := by decide
/-- T24. -/
theorem test_stat_after_reset :
    resultOf (exec .stat (resetState 8)) =
      some (.status ⟨0#2, 0#3, false, false, false, false, false, 0#16, 0#16, 0#16, 0#16, 0#32, 0#16⟩) := by decide
/-- T72: STAT while frozen. -/
theorem test_stat_frozen :
    resultOf (exec .stat frozenReady) =
      some (.status ⟨1#2, 1#3, true, true, true, true, false, 0#16, 1#16, 0#16, 1#16, 0#32, 0x0007#16⟩) := by decide
/-- T33. -/
theorem test_sendb :
    (after (exec .sendb { ready 8 0 [] with argBytes := [0x55#8, 0xAA#8] }) torn).txOut = [0x55#8, 0xAA#8] := by decide
/-- T34. -/
theorem test_sendb_before_init : resultOf (exec .sendb (resetState 8)) = some (.fault 2#3) := by decide
/-- V1: the frame of the source's scenario, under the parse procedure. -/
theorem test_parse_frame :
    resultOf (exec .parse (ready 8 0 [0x02#8, 0x05#8, 0xAA#8, 0xBB#8, 0x16#8])) =
      some (.packet (.ok ⟨0x02#8, 3#8, [0xAA#8, 0xBB#8, 0x16#8], 0x00#8⟩)) := by decide
/-- T47: a frame that wraps, N = 5. -/
theorem test_parse_wraps :
    after (exec .parse (ready 5 3 [0x02#8, 0x04#8, 0x33#8, 0x35#8])) torn =
      { ready 5 3 [0x02#8, 0x04#8, 0x33#8, 0x35#8] with
        rd := 2, wr := 2, count := 0, results := [.packet (.ok ⟨0x02#8, 2#8, [0x33#8, 0x35#8], 0x00#8⟩)] } := by decide
/-- T50: the zero-length substitution. -/
theorem test_send_empty :
    (after (exec (.send 0x10#8) (ready 8 0 [])) torn).txOut = [0x10#8, 0x03#8, 0x00#8, 0x13#8] := by decide
/-- T53. -/
theorem test_send_two :
    (after (exec (.send 0x11#8) { ready 8 0 [] with argBytes := [0x01#8, 0x02#8] }) torn).txOut =
      [0x11#8, 0x04#8, 0x01#8, 0x02#8, 0x16#8] := by decide
/-- T54: SENDS "OK". -/
theorem test_sends_data : sendFrame 0x20#8 (sendsData [0x4F#8, 0x4B#8]) =
    [0x20#8, 0x05#8, 0x4F#8, 0x4B#8, 0x00#8, 0x21#8] := by decide
/-- T58. -/
theorem test_send_too_long :
    resultOf (exec (.send 0x42#8) { ready 8 0 [] with argBytes := many 254 0#8 }) = some (.fault 5#3) := by
  rw [exec_raise (admission_argLength rfl rfl (by simp [maxPayload]))]
  rfl
/-- T1: the second record overruns. -/
theorem test_line_overrun :
    lineStep ⟨0x42#8, false, false⟩ (holding ⟨0x41#8, false, false⟩ []) =
      { holding ⟨0x41#8, false, false⟩ [] with oerr := true } := by decide
/-- T9: a record before INIT is lost. -/
theorem test_line_before_init : lineStep ⟨0x01#8, false, false⟩ (resetState 8) = resetState 8 := by decide
/-- T2. -/
theorem test_drain_appends :
    after (drainStep 5#32 { holding ⟨0x41#8, false, false⟩ [] with oerr := true }) torn =
      { ready 8 0 [] with q := [(0, 0x41#8)], wr := 1, count := 1, lastRxMs := 5#32 } := by decide
/-- T7: a record with an error flag is dropped, the overrun flag is cleared. -/
theorem test_drain_drops :
    after (drainStep 3#32 { holding ⟨0x01#8, true, false⟩ [] with oerr := true }) torn = ready 8 0 [] := by decide
/-- T8: a byte at a full buffer is dropped, N = 2. -/
theorem test_drain_full :
    after (drainStep 3#32 { ready 2 0 [0x01#8, 0x02#8] with hwRx := [⟨0x03#8, false, false⟩] }) torn =
      ready 2 0 [0x01#8, 0x02#8] := by decide
/-- T73: a second fault is not raised. -/
theorem test_frozen_refuses : resultOf (exec .init frozenReady) = some .refused := by decide
/-- T74. -/
theorem test_reset_unfreezes : frozenReady.physicalReset = resetState 8 := by decide

/-! ## Witnesses: states that meet the hypotheses of the statements -/

theorem witness_ready_inv : (ready 8 0 [0x02#8, 0x05#8, 0xAA#8, 0xBB#8, 0x16#8]).Inv := by constructor <;> decide
theorem witness_ready_empty_inv : (ready 8 0 []).Inv := by constructor <;> decide
theorem witness_ready_wrapped_inv : (ready 8 7 [0x5A#8, 0x5B#8]).Inv := by constructor <;> decide
theorem witness_ready_full_inv : (ready 4 0 [0x20#8, 0x04#8, 0x41#8, 0x65#8]).Inv := by constructor <;> decide
theorem witness_uninit_inv : (resetState 8).Inv := by constructor <;> decide
theorem witness_torn_inv : torn.Inv := by constructor <;> decide
theorem witness_frozen_inv : frozenReady.Inv := by constructor <;> decide
theorem witness_holding_inv : (holding ⟨0x41#8, false, false⟩ []).Inv := by constructor <;> decide

theorem witness_EncodeInvertsDecode : decode 0x40FF#16 = .ok (.peek 0xFF#8) := by decide
theorem witness_IllegalWords : decode 0x0000#16 = .error (.reservedOp 0#4) ∧ (resetState 8).fault = .noFault ∧
    frozenReady.fault ≠ .noFault ∧ ([] : List Byte).length ≤ 255 := by decide
theorem witness_AssemblerLines : ([0x55#8, 0xAA#8] : List Byte).length ≤ 255 ∧ (many 255 0#8).length ≤ 255 :=
  ⟨by decide, (many_length 255 _).le⟩
theorem witness_StepTakesTheScheduledEvent :
    (resetState 8).schedule = [] ∧ ({ resetState 8 with schedule := [.reset] } : State).schedule = [.reset] := by decide
theorem witness_StepRunsTheDecodedInstruction :
    ({ resetState 8 with schedule := [.ctrl 0x6000#16 0#32 []] } : State).schedule = [.ctrl 0x6000#16 0#32 []] ∧
      decode 0x6000#16 = .ok .stat := by decide
theorem witness_Stops :
    (({ ready 8 0 [0x41#8] with rd := 8 } : State).running ∧ ({ ready 8 0 [0x41#8] with rd := 8 } : State).count ≠ 0) ∧
      ({ ready 8 0 [0x41#8, 0x42#8] with params := ⟨0, 1⟩ } : State).running ∧
      (({ holding ⟨0x41#8, false, false⟩ [] with wr := 8 } : State).running ∧
        ({ holding ⟨0x41#8, false, false⟩ [] with wr := 8 } : State).count < 8) ∧
      255 < (many 256 0#8).length :=
  ⟨⟨⟨rfl, rfl⟩, by decide⟩, ⟨rfl, rfl⟩, ⟨⟨rfl, rfl⟩, by decide⟩, by simp⟩
theorem witness_OnlyResetLeavesTornDownOrFrozen :
    (∃ t, agentStep (.drain 0#32) torn = .next t) ∧ torn.mode = .tornDown ∧
      (∃ t, agentStep (.drain 0#32) frozenReady = .next t) ∧ frozenReady.fault ≠ .noFault :=
  ⟨⟨_, rfl⟩, rfl, ⟨_, rfl⟩, by decide⟩
/-- The modes of a block that is not frozen, for the statements with a clause per mode (INIT, TDOWN, FLUSH, SENDB). -/
theorem witness_modes_not_frozen :
    ((resetState 8).fault = .noFault ∧ (resetState 8).mode = .uninit) ∧
      ((ready 8 0 []).fault = .noFault ∧ (ready 8 0 []).mode = .ready) ∧
      (torn.fault = .noFault ∧ torn.mode = .tornDown) := by decide
theorem witness_TornDownIsIrreversible : Event.reset ∉ [Event.drain 0#32] ∧
    runEvents [.drain 0#32] torn = some torn := by decide
theorem witness_InitLeavesNothingReceived :
    (resetState 8).Inv ∧ (resetState 8).fault = .noFault ∧ (resetState 8).mode = .uninit :=
  ⟨by constructor <;> decide, rfl, rfl⟩
/-- A record held at TDOWN is still held after events that reach neither it nor the receiver. -/
theorem witness_TdownDestroysTheDevice_held :
    ({ torn with hwRx := [⟨0x41#8, false, false⟩] } : State).mode = .tornDown ∧
      Event.reset ∉ [Event.drain 1#32, .line ⟨0x42#8, false, false⟩, .ctrl 0x6000#16 0#32 []] ∧
      ∃ t, runEvents [.drain 1#32, .line ⟨0x42#8, false, false⟩, .ctrl 0x6000#16 0#32 []]
        { torn with hwRx := [⟨0x41#8, false, false⟩] } = some t :=
  ⟨rfl, by decide, _, rfl⟩
theorem witness_PopTakesTheOldestByte :
    (ready 8 0 []).count = 0 ∧ (ready 8 7 [0x5A#8, 0x5B#8]).count ≠ 0 ∧ (ready 8 7 [0x5A#8, 0x5B#8]).rd < 8 ∧
      (ready 8 7 [0x5A#8, 0x5B#8]).q.read 7 = some 0x5A#8 := by decide
theorem witness_PeekLooksAhead :
    (ready 4 0 [0x0A#8, 0x0B#8]).q.read ((0 + (1#8 : Byte).toNat) % 4) = some 0x0B#8 ∧
      (ready 4 0 [0x0A#8, 0x0B#8]).q.read ((0 + (2#8 : Byte).toNat) % 4) = none := by decide
theorem witness_PeekOffsetWraps : (0#8 : Byte).toNat % (ready 4 0 []).params.capacity =
    (4#8 : Byte).toNat % (ready 4 0 []).params.capacity := by decide
theorem witness_UnsetCellReads :
    (({ ready 8 0 [0x41#8] with q := [] } : State).running ∧ ({ ready 8 0 [0x41#8] with q := [] } : State).count ≠ 0 ∧
      ({ ready 8 0 [0x41#8] with q := [] } : State).q.read 0 = none) ∧
      (ready 4 0 []).running ∧ (ready 4 0 []).q.read ((0 + (2#8 : Byte).toNat) % 4) = none :=
  ⟨⟨⟨rfl, rfl⟩, by decide, rfl⟩, ⟨rfl, rfl⟩, rfl⟩
theorem witness_OnlyPeekBeyondTheCountDraws :
    ∃ t, agentStep (.ctrl 0x4002#16 0#32 []) (ready 8 0 []) = .next t ∧ t.draws ≠ (ready 8 0 []).draws :=
  ⟨_, rfl, by decide⟩
theorem witness_OnlyPeekBeyondTheCountDraws_length :
    (ready 8 0 [0x09#8, 0x00#8]).Inv ∧ 2 ≤ (ready 8 0 [0x09#8, 0x00#8]).count :=
  ⟨by constructor <;> decide, by decide⟩
theorem witness_StatReportsTheState : (ready 8 0 [0x41#8]).hwRx.length < 65536 ∧ (ready 8 0 [0x41#8]).count < 65536 ∧
    (ready 8 0 [0x41#8]).rd < 65536 ∧ (ready 8 0 [0x41#8]).wr < 65536 := by decide
theorem witness_StatAlwaysAnswers :
    65536 ≤ ({ ready 8 0 [] with hwRx := List.replicate 65536 ⟨0#8, false, false⟩ } : State).hwRx.length :=
  List.length_replicate.ge
theorem witness_SendTransmitsOneFrame :
    ({ ready 8 0 [] with argBytes := many 253 0#8 } : State).argBytes.length ≤ 253 ∧
      253 < ({ ready 8 0 [] with argBytes := many 254 0#8 } : State).argBytes.length :=
  ⟨(many_length 253 _).le, by rw [many_length]; decide⟩
theorem witness_TransmittedFrameShape : (many 253 0#8).length ≤ 253 := by simp
theorem witness_TransmittedFrameXorsToZero :
    ∃ t, exec (.send 0x10#8) (ready 8 0 []) = .next t ∧ t.fault = .noFault := ⟨_, rfl, rfl⟩
theorem witness_SendsForwards : ([0x4F#8, 0x4B#8] : List Byte).length ≤ 252 ∧ (0x00#8 : Byte) ∉ [0x4F#8, 0x4B#8] ∧
    252 < (many 253 0x41#8).length ∧ (0x00#8 : Byte) ∈ [0x00#8] := by simp
theorem witness_ParseWaits :
    (ready 8 0 [0x02#8]).count < 2 ∧ 2 ≤ (ready 8 0 [0x09#8, 0x00#8]).count ∧
      (ready 8 0 [0x09#8, 0x00#8]).q.read ((0 + 1) % 8) = some 0x00#8 ∧
      (ready 8 0 [0x09#8, 0x00#8]).count ≠ (0x00#8 : Byte).toNat := by decide
theorem witness_ParseWaits_incomplete : (ready 8 0 [0x02#8]).fault = .noFault ∧
    ∃ t, exec .parse (ready 8 0 [0x02#8]) = .next t ∧
      t.results = (ready 8 0 [0x02#8]).results ++ [.packet .incomplete] := ⟨rfl, _, rfl, rfl⟩
theorem witness_ParseWaits_inv : (ready 8 0 [0x02#8]).Inv ∧ (ready 8 0 [0x09#8, 0x00#8]).Inv :=
  ⟨by constructor <;> decide, by constructor <;> decide⟩
theorem witness_ParseConsumes :
    (ready 8 0 [0x02#8, 0x05#8, 0xAA#8, 0xBB#8, 0x16#8]).queue =
        [0x02#8, 0x05#8, 0xAA#8, 0xBB#8, 0x16#8].map some ∧
      (0x05#8 : Byte).toNat = [0x02#8, 0x05#8, 0xAA#8, 0xBB#8, 0x16#8].length := by decide
/-- T46: a frame as long as the buffer. -/
theorem witness_ParseConsumes_full :
    (ready 4 0 [0x20#8, 0x04#8, 0x41#8, 0x65#8]).queue = [0x20#8, 0x04#8, 0x41#8, 0x65#8].map some ∧
      (0x04#8 : Byte).toNat = [0x20#8, 0x04#8, 0x41#8, 0x65#8].length := by decide
/-- V3: `cmd = 31` and `q = [10, 20]`; then SEND's frame whole, and without its last byte. -/
theorem witness_FrameRoundTrips :
    (ready 8 0 [0x31#8, 0x05#8, 0x10#8, 0x20#8, 0x04#8]).queue =
        ([0x31#8, 0x05#8] ++ [0x10#8, 0x20#8] ++ [0x04#8]).map some ∧
      (0x05#8 : Byte) = BitVec.ofNat 8 ([0x10#8, 0x20#8].length + 3) ∧
      (0x04#8 : Byte) = 0x31#8 ^^^ 0x05#8 ^^^ xorAll [0x10#8, 0x20#8] ∧
      (ready 8 0 [0x11#8, 0x04#8, 0x01#8, 0x02#8, 0x16#8]).queue = (sendFrame 0x11#8 [0x01#8, 0x02#8]).map some ∧
      sendFrame 0x11#8 [0x01#8, 0x02#8] = [0x11#8, 0x04#8, 0x01#8, 0x02#8] ++ [0x16#8] := by decide
theorem witness_frame_inv : (ready 8 0 [0x31#8, 0x05#8, 0x10#8, 0x20#8, 0x04#8]).Inv ∧
    (ready 8 0 [0x11#8, 0x04#8, 0x01#8, 0x02#8, 0x16#8]).Inv ∧
    (ready 8 0 [0x11#8, 0x04#8, 0x01#8, 0x02#8]).Inv :=
  ⟨by constructor <;> decide, by constructor <;> decide, by constructor <;> decide⟩
/-- V4: the rows of the single-bit table. -/
theorem witness_SingleFlipsAreDetected :
    (∃ u f, exec .parse (ready 8 0 [0x02#8, 0x05#8, 0xAA#8, 0xBB#8, 0x16#8]) = .next u ∧
        u.results = [] ++ [.packet (.ok f)]) ∧
      (ready 8 0 [0x02#8, 0x05#8, 0xAB#8, 0xBB#8, 0x16#8]).queue =
        (flipBit 0 [2] [0x02#8, 0x05#8, 0xAA#8, 0xBB#8, 0x16#8]).map some ∧
      (ready 8 0 [0x02#8, 0x05#8, 0xAB#8, 0xBA#8, 0x16#8]).queue =
        (flipBit 0 [2, 3] [0x02#8, 0x05#8, 0xAA#8, 0xBB#8, 0x16#8]).map some ∧ Even [2, 3].length ∧
      (ready 8 0 [0x02#8, 0x04#8, 0xAA#8, 0xBB#8, 0x16#8]).queue =
        ([0x02#8, 0x05#8, 0xAA#8, 0xBB#8, 0x16#8].set 1 0x04#8).map some ∧
      (0x04#8 : Byte).toNat ≠ (ready 8 0 [0x02#8, 0x04#8, 0xAA#8, 0xBB#8, 0x16#8]).count :=
  ⟨⟨_, ⟨0x02#8, 3#8, [0xAA#8, 0xBB#8, 0x16#8], 0x00#8⟩, rfl, by decide⟩, by decide, by decide, by decide, by decide,
    by decide⟩
theorem witness_flipped_inv : (ready 8 0 [0x02#8, 0x05#8, 0xAB#8, 0xBB#8, 0x16#8]).Inv ∧
    (ready 8 0 [0x02#8, 0x05#8, 0xAB#8, 0xBA#8, 0x16#8]).Inv ∧
    (ready 8 0 [0x02#8, 0x04#8, 0xAA#8, 0xBB#8, 0x16#8]).Inv :=
  ⟨by constructor <;> decide, by constructor <;> decide, by constructor <;> decide⟩
/-- T38 (more bytes than declared), T39 (L = 0) and T41 (L over N). -/
theorem witness_StuckParser :
    (ready 8 0 [0x02#8, 0x03#8, 0x01#8, 0x7F#8]).cellAhead 1 = some 0x03#8 ∧
      (0x03#8 : Byte).toNat < (ready 8 0 [0x02#8, 0x03#8, 0x01#8, 0x7F#8]).count ∧
      (ready 8 0 [0x09#8, 0x00#8]).cellAhead 1 = some 0x00#8 ∧
      (ready 4 0 [0x02#8, 0x09#8, 0x01#8, 0x02#8]).cellAhead 1 = some 0x09#8 ∧
      (ready 4 0 [0x02#8, 0x09#8, 0x01#8, 0x02#8]).params.capacity < (0x09#8 : Byte).toNat := by decide
theorem witness_StuckParser_run :
    (ready 8 0 [0x02#8, 0x03#8, 0x01#8, 0x7F#8]).Inv ∧ (ready 8 0 [0x09#8, 0x00#8]).Inv ∧
      (ready 4 0 [0x02#8, 0x09#8, 0x01#8, 0x02#8]).Inv ∧
      ∃ t, runEvents [.line ⟨0x01#8, false, false⟩, .drain 1#32] (ready 8 0 [0x02#8, 0x03#8, 0x01#8, 0x7F#8]) = some t ∧
        t.running ∧ Event.reset ∉ [.line ⟨0x01#8, false, false⟩, .drain 1#32] ∧
        ∀ cw baud bytes, Event.ctrl cw baud bytes ∈ [.line ⟨0x01#8, false, false⟩, .drain 1#32] →
          decode cw ≠ .ok .pop ∧ decode cw ≠ .ok .flush :=
  ⟨by constructor <;> decide, by constructor <;> decide, by constructor <;> decide, _, rfl, ⟨rfl, rfl⟩, by decide,
    by simp⟩
theorem witness_ParseNeedsCapacity :
    ∃ t p, exec .parse (ready 4 0 [0x20#8, 0x04#8, 0x41#8, 0x65#8]) = .next t ∧
      t.results = (ready 4 0 [0x20#8, 0x04#8, 0x41#8, 0x65#8]).results ++ [.packet p] ∧ p ≠ .incomplete :=
  ⟨_, .ok ⟨0x20#8, 2#8, [0x41#8, 0x65#8], 0x00#8⟩, rfl, by decide, by decide⟩
theorem witness_LineHoldsOrLoses :
    (ready 8 0 []).oerr = false ∧ (ready 8 0 []).hwRx.length ≠ (ready 8 0 []).params.hwRxDepth ∧
      (holding ⟨0x41#8, false, false⟩ []).hwRx.length = (holding ⟨0x41#8, false, false⟩ []).params.hwRxDepth ∧
      ({ holding ⟨0x41#8, false, false⟩ [] with oerr := true } : State).oerr = true ∧
      frozenReady.fault ≠ .noFault ∧ torn.mode ≠ .ready ∧ (ready 8 0 []).rxEn = true ∧ torn.rxEn = false := by decide
theorem witness_DrainEventWithoutAStep :
    frozenReady.fault ≠ .noFault ∧ torn.mode ≠ .ready ∧ (ready 8 0 []).hwRx = [] := by decide
theorem witness_DrainAppendsOrDrops :
    (ready 8 0 []).hwRx = [] ∧ (holding ⟨0x41#8, false, false⟩ []).hwRx = ⟨0x41#8, false, false⟩ :: [] ∧
      (holding ⟨0x41#8, false, false⟩ []).count < (holding ⟨0x41#8, false, false⟩ []).params.capacity ∧
      ({ ready 2 0 [0x01#8, 0x02#8] with hwRx := [⟨0x03#8, false, false⟩] } : State).params.capacity ≤
        ({ ready 2 0 [0x01#8, 0x02#8] with hwRx := [⟨0x03#8, false, false⟩] } : State).count ∧
      (holding ⟨0x41#8, true, false⟩ []).hwRx = ⟨0x41#8, true, false⟩ :: [] := by decide
theorem witness_DrainWritesOneCell :
    ∃ t, agentStep (.drain 5#32) (holding ⟨0x41#8, false, false⟩ []) = .next t ∧
      t.count ≠ (holding ⟨0x41#8, false, false⟩ []).count :=
  ⟨_, rfl, by decide⟩
theorem witness_OverflowKeeps : (ready 8 0 []).hwRx = [] ∧ (ready 8 0 []).fault = .noFault ∧
    (ready 8 0 []).mode = .ready := by decide
/-- A run in which DRAIN steps at every turn: the one held record is read at the first. -/
theorem witness_FairDrain :
    IsRun (fun _ => .drain 5#32)
        (fun n => if n = 0 then holding ⟨0x41#8, true, false⟩ [] else ready 8 0 []) ∧
      DrainFair (fun _ => .drain 5#32)
        (fun n => if n = 0 then holding ⟨0x41#8, true, false⟩ [] else ready 8 0 []) ∧
      (∀ m, 0 ≤ m → (if m = 0 then holding ⟨0x41#8, true, false⟩ [] else ready 8 0 []).running) ∧
      (holding ⟨0x41#8, true, false⟩ []).hwRx ≠ [] := by
  refine ⟨?_, fun n _ => ⟨n, Nat.le_refl n, _, rfl⟩, ?_, by decide⟩
  · intro n
    cases n <;> rfl
  · intro m _
    cases m <;> exact ⟨rfl, rfl⟩
theorem witness_FaultsArePrecise :
    ∃ t, agentStep (.ctrl 0x3000#16 0#32 []) (resetState 8) = .next t ∧ t.fault ≠ .noFault :=
  ⟨_, rfl, by decide⟩
theorem witness_FrozenBlockRefuses : frozenReady.fault ≠ .noFault ∧ decode 0x3000#16 ≠ .ok .stat := by decide
/-- A step for each fault code (T60, T69, T30, T26; T58 below) and one that raises none. -/
theorem witness_FaultCodes :
    (after (agentStep (.ctrl 0x0000#16 0#32 []) (resetState 8)) torn).fault = .illegalOp ∧
      (after (agentStep (.ctrl 0x8000#16 0#32 []) (resetState 8)) torn).fault = .notReady ∧
      (after (agentStep (.ctrl 0x3000#16 0#32 []) torn) (resetState 8)).fault = .tornDown ∧
      (after (agentStep (.ctrl 0x1000#16 0#32 []) (ready 8 0 [])) torn).fault = .reinit ∧
      (after (agentStep (.ctrl 0x3000#16 0#32 []) (ready 8 0 [])) frozenReady).fault = .noFault := by decide
theorem witness_FaultCodes_argLength : ∃ t,
    agentStep (.ctrl 0x9042#16 0#32 (many 254 0#8)) (ready 8 0 []) = .next t ∧ t.fault = .argLength := by
  have hd : decode 0x9042#16 = .ok (.send 0x42#8) := by decide
  have hw : argBytesWellFormed (many 254 0#8) = true := by simp [argBytesWellFormed, maxArg]
  refine ⟨(State.present (ready 8 0 []) 0#32 (many 254 0#8)).raise .argLength, ?_, rfl⟩
  simp only [agentStep, ctrlStep, hw, hd, if_true]
  exact exec_raise (admission_argLength rfl rfl (by simp [State.present, maxPayload]))
theorem witness_FirstFaultIsKept : frozenReady.fault ≠ .noFault ∧ Event.reset ∉ [Event.drain 0#32] ∧
    runEvents [.drain 0#32] frozenReady = some frozenReady := by decide
theorem witness_OnlyInitTdownAndResetWriteMode :
    (∃ t, agentStep (.ctrl 0x1000#16 0#32 []) (resetState 8) = .next t ∧ t.mode ≠ (resetState 8).mode) ∧
      (∃ t, agentStep (.ctrl 0x2000#16 0#32 []) (ready 8 0 []) = .next t ∧ t.mode ≠ (ready 8 0 []).mode) ∧
      ∃ t, agentStep .reset torn = .next t ∧ t.mode ≠ torn.mode :=
  ⟨⟨_, rfl, by decide⟩, ⟨_, rfl, by decide⟩, ⟨_, rfl, by decide⟩⟩
theorem witness_OnlyInitTdownAndResetWriteTheLinkBits :
    (∃ t, agentStep (.ctrl 0x2000#16 0#32 []) (ready 8 0 []) = .next t ∧
      (t.bound, t.moduleEn, t.rxEn, t.txEn, t.brg) ≠ (true, true, true, true, 0x0007#16)) ∧
      (∃ t, agentStep (.ctrl 0x1000#16 0#32 []) (resetState 8) = .next t ∧ t.bound ≠ false) :=
  ⟨⟨_, rfl, by decide⟩, ⟨_, rfl, by decide⟩⟩
theorem witness_OnlyInitTdownAndResetWriteTheLinkBits_mode :
    (∃ t, exec .init (resetState 8) = .next t ∧ t.mode ≠ (resetState 8).mode) ∧
      (∃ t, exec .tdown (ready 8 0 []) = .next t ∧ t.mode ≠ (ready 8 0 []).mode) ∧ torn.rxEn = false :=
  ⟨⟨_, rfl, by decide⟩, ⟨_, rfl, by decide⟩, rfl⟩
theorem witness_TransmitHistoryOnlyGrows :
    ∃ t, agentStep (.ctrl 0x7000#16 0#32 [0x55#8]) (ready 8 0 []) = .next t ∧ t.txOut = [] ++ [0x55#8] :=
  ⟨_, rfl, by decide⟩
theorem witness_EachOperationReturnsOneResult :
    (∃ t, agentStep (.ctrl 0x6000#16 0#32 []) (resetState 8) = .next t) ∧
      ∃ t, agentStep (.drain 0#32) (resetState 8) = .next t :=
  ⟨⟨_, rfl⟩, ⟨_, rfl⟩⟩
theorem witness_OnlyStatReads :
    (∃ t, agentStep (.ctrl 0x1000#16 0#32 []) (resetState 8) = .next t) ∧
      (∀ baud bytes, Event.ctrl 0x1000#16 0#32 [] ≠ .ctrl 0x6000#16 baud bytes) ∧
      (∃ t, agentStep (.drain 5#32) (holding ⟨0x41#8, false, false⟩ []) = .next t) ∧
      ∀ baud bytes, Event.drain 5#32 ≠ .ctrl 0x6000#16 baud bytes :=
  ⟨⟨_, rfl⟩, by simp, ⟨_, rfl⟩, by simp⟩
theorem witness_OneProducerOneConsumer :
    (∃ t, agentStep (.line ⟨0x41#8, false, false⟩) (ready 8 0 []) = .next t) ∧
      (∃ t, agentStep (.drain 5#32) (holding ⟨0x41#8, false, false⟩ []) = .next t) ∧
      ∃ t, agentStep (.ctrl 0x3000#16 0#32 []) (ready 8 0 []) = .next t :=
  ⟨⟨_, rfl⟩, ⟨_, rfl⟩, ⟨_, rfl⟩⟩
theorem witness_ParametersNeverChange : ∃ t, step { ready 8 0 [] with schedule := [.reset] } = .next t := ⟨_, rfl⟩
theorem witness_OperationsLeaveTheRest : ∃ t, exec .pop (ready 8 7 [0x5A#8, 0x5B#8]) = .next t := ⟨_, rfl⟩
theorem witness_DrainAndSendCommute : decode 0x7000#16 = .ok .sendb ∧ decode 0x9011#16 = .ok (.send 0x11#8) ∧
    ([] : List Byte).length ≤ 253 := by decide
theorem witness_TransmissionReadsNoReceiveState :
    (ready 8 0 []).fault = (ready 8 7 [0x5A#8]).fault ∧ (ready 8 0 []).mode = (ready 8 7 [0x5A#8]).mode ∧
      (ready 8 0 []).argBytes = (ready 8 7 [0x5A#8]).argBytes ∧ (∃ t, exec .sendb (ready 8 0 []) = .next t) ∧
      ∃ t, exec .sendb (ready 8 7 [0x5A#8]) = .next t :=
  ⟨rfl, rfl, rfl, ⟨_, rfl⟩, ⟨_, rfl⟩⟩
theorem witness_StepKeepsTheInvariant :
    State.Inv { ready 8 0 [] with schedule := [.ctrl 0x3000#16 0#32 []] } ∧
      ∃ t, step { ready 8 0 [] with schedule := [.ctrl 0x3000#16 0#32 []] } = .next t :=
  ⟨by constructor <;> decide, _, rfl⟩
theorem witness_NoStepStops : State.scheduleOk { ready 8 0 [] with schedule := [.ctrl 0x3000#16 0#32 []] } := by
  intro e he
  simp only [List.mem_singleton] at he
  subst he
  decide
theorem witness_CircularBuffer :
    (holding ⟨0x41#8, false, false⟩ []).hwRx = ⟨0x41#8, false, false⟩ :: [] ∧ (ready 8 0 []).queue = [] ∧
      (ready 8 7 [0x5A#8, 0x5B#8]).queue = some 0x5A#8 :: [some 0x5B#8] ∧
      (ready 8 7 [0x5A#8, 0x5B#8]).queue[(1#8 : Byte).toNat]? = some (some 0x5B#8) := by decide

end Sys2Proof.Tests
end

section
/-! PROOFS. The parameters N and HW_RX_DEPTH are fixed (00_scope.md R2): each agent's step keeps them, hence every step. -/

namespace Sys2Proof.Machine

theorem State.PoppedFrom.params_eq {s t : State} (h : s.PoppedFrom t) : t.params = s.params := by
  obtain ⟨rd, count, draws, rfl⟩ := h
  rfl

/-- Beside the storage reads of POP, PEEK and PARSE, an operation's effect is a named update of the state, and none
of these writes the parameters. -/
theorem Effect.params_eq {i : Instr} {s t : State} (h : Effect i s t) : t.params = s.params := by
  cases i with
  | pop =>
    obtain ⟨b, e, u, hp, rfl⟩ := h
    exact (popByte_poppedFrom hp).params_eq
  | peek off =>
    obtain ⟨b, u, hr, rfl⟩ := h
    exact (readCell_poppedFrom hr).params_eq
  | parse =>
    obtain ⟨p, u, hp, rfl⟩ := h
    exact (parseFrame_poppedFrom hp).params_eq
  | init | tdown | flush | stat | sendb | send cmd =>
    cases h
    rfl

theorem exec_params {i : Instr} {s t : State} (h : exec i s = .next t) : t.params = s.params := by
  obtain ⟨-, rfl⟩ | ⟨code, -, rfl⟩ | ⟨-, he⟩ := exec_cases h
  · exact State.refuse_params s
  · exact State.raise_params s code
  · exact he.params_eq

@[simp] theorem illegalWord_params (s : State) : (illegalWord s).params = s.params := by
  unfold illegalWord
  split
  · exact State.refuse_params s
  · exact State.raise_params s .illegalOp

theorem ctrlStep_params {cw : Word} {baud : Baud} {bytes : List Byte} {s t : State}
    (h : ctrlStep cw baud bytes s = .next t) : t.params = s.params := by
  obtain ⟨-, ⟨i, -, he⟩ | ⟨e, -, rfl⟩⟩ := ctrlStep_cases h
  · exact (exec_params he).trans (State.present_params s baud bytes)
  · exact illegalWord_params (s.present baud bytes)

@[simp] theorem lineStep_params (r : RxRecord) (s : State) : (lineStep r s).params = s.params := by
  obtain h | ⟨-, -, -, h⟩ | ⟨-, -, -, h⟩ := lineStep_cases r s <;> rw [h]

theorem drainStep_params {now : Millis} {s t : State} (h : drainStep now s = .next t) : t.params = s.params := by
  obtain ⟨-, rfl⟩ | ⟨r, rest, -, -, ⟨-, -, -, rfl⟩ | ⟨-, rfl⟩⟩ := drainStep_cases h
  · rfl
  · rfl
  · exact State.takeRecord_params s rest

theorem agentStep_params {e : Event} {s t : State} (h : agentStep e s = .next t) : t.params = s.params := by
  obtain ⟨r, -, rfl⟩ | ⟨now, -, hd⟩ | ⟨cw, baud, bytes, -, hc⟩ | ⟨-, rfl⟩ := agentStep_cases h
  · exact lineStep_params r s
  · exact drainStep_params hd
  · exact ctrlStep_params hc
  · exact State.physicalReset_params s

/-- Settles O50: a step waits or is an agent's step on the rest of the schedule, and every agent keeps the parameters. -/
theorem parametersNeverChange : Obligations.ParametersNeverChange := by
  intro s t h
  obtain ⟨-, rfl⟩ | ⟨e, rest, -, he⟩ := step_cases h
  · rfl
  · rw [agentStep_params he]

end Sys2Proof.Machine
end

section
/-! PROOFS. Who writes `mode`, the four link bits and the divisor (10_state.md R23, R25, R26): every step keeps the six
fields together, but INIT's word in UNINIT, TDOWN's word in READY and the physical reset. -/

namespace Sys2Proof

/-- The encoder is the only source of legal words: the fields of a word that decodes are those of its encoding. -/
theorem eq_encode_of_decode {w : Word} {i : Instr} (h : decode w = .ok i) : w = encode i := by
  obtain ⟨hrsv, hop, himm⟩ := decode_fields h
  rw [word_eq_fields w, hrsv, hop, himm]
  rfl

theorem decode_eq_init {w : Word} (h : decode w = .ok .init) : w = 0x1000#16 := eq_encode_of_decode h

theorem decode_eq_tdown {w : Word} (h : decode w = .ok .tdown) : w = 0x2000#16 := eq_encode_of_decode h

namespace Machine

/-- The mode, the four link bits and the divisor. -/
def State.device (s : State) : Mode × Bool × Bool × Bool × Bool × BitVec 16 :=
  (s.mode, s.bound, s.moduleEn, s.rxEn, s.txEn, s.brg)

/-- The fields after INIT (R122). -/
def deviceOn (baud : Baud) : Mode × Bool × Bool × Bool × Bool × BitVec 16 :=
  (.ready, true, true, true, true, Config.brgOf baud)

/-- The fields in a mode whose link is down: after TDOWN (R124) and after reset (R231). -/
def deviceOff (m : Mode) : Mode × Bool × Bool × Bool × Bool × BitVec 16 := (m, false, false, false, false, 0#16)

theorem State.device_eq_iff {s : State} {m : Mode} {bound moduleEn rxEn txEn : Bool} {brg : BitVec 16} :
    s.device = (m, bound, moduleEn, rxEn, txEn, brg) ↔ s.mode = m ∧ s.bound = bound ∧ s.moduleEn = moduleEn ∧
      s.rxEn = rxEn ∧ s.txEn = txEn ∧ s.brg = brg := by
  simp only [State.device, Prod.mk.injEq]

theorem State.device_eq_deviceOn {s : State} {baud : Baud} : s.device = deviceOn baud ↔
    s.mode = .ready ∧ s.bound = true ∧ s.moduleEn = true ∧ s.rxEn = true ∧ s.txEn = true ∧
      s.brg = Config.brgOf baud :=
  State.device_eq_iff

theorem State.device_eq_deviceOff {s : State} {m : Mode} : s.device = deviceOff m ↔
    s.mode = m ∧ s.bound = false ∧ s.moduleEn = false ∧ s.rxEn = false ∧ s.txEn = false ∧ s.brg = 0#16 :=
  State.device_eq_iff

theorem State.mode_eq_of_device {s t : State} (h : t.device = s.device) : t.mode = s.mode := congrArg Prod.fst h

theorem State.PoppedFrom.device_eq {s t : State} (h : s.PoppedFrom t) : t.device = s.device := by
  obtain ⟨rd, count, draws, rfl⟩ := h
  rfl

/-- An admitted operation but INIT and TDOWN keeps the device. -/
theorem Effect.device_eq {i : Instr} {s t : State} (h : Effect i s t) (hi : i ≠ .init) (ht : i ≠ .tdown) :
    t.device = s.device := by
  cases i with
  | init => exact absurd rfl hi
  | tdown => exact absurd rfl ht
  | pop =>
    obtain ⟨b, e, u, hp, rfl⟩ := h
    exact (popByte_poppedFrom hp).device_eq
  | peek off =>
    obtain ⟨b, u, hr, rfl⟩ := h
    exact (readCell_poppedFrom hr).device_eq
  | parse =>
    obtain ⟨p, u, hp, rfl⟩ := h
    exact (parseFrame_poppedFrom hp).device_eq
  | flush | stat | sendb | send cmd =>
    cases h
    rfl

/-- All that an operation can do to the device, with the mode the checks want it to start from (R204). -/
theorem exec_device_cases {i : Instr} {s t : State} (h : exec i s = .next t) :
    t.device = s.device ∨ (i = .init ∧ s.mode = .uninit ∧ t.device = deviceOn s.argBaud) ∨
      (i = .tdown ∧ s.mode = .ready ∧ t.device = deviceOff .tornDown) := by
  obtain ⟨-, rfl⟩ | ⟨code, -, rfl⟩ | ⟨ha, he⟩ := exec_cases h
  · exact .inl rfl
  · exact .inl rfl
  · by_cases hi : i = .init
    · subst hi he
      have ⟨_, hm⟩ : s.fault = .noFault ∧ s.mode = .uninit := by simpa using admission_run_cases ha
      exact .inr (.inl ⟨rfl, hm, rfl⟩)
    · by_cases ht : i = .tdown
      · subst ht he
        have ⟨_, hm⟩ : s.fault = .noFault ∧ s.mode = .ready := by simpa using admission_run_cases ha
        exact .inr (.inr ⟨rfl, hm, rfl⟩)
      · exact .inl (he.device_eq hi ht)

@[simp] theorem illegalWord_device (s : State) : (illegalWord s).device = s.device := by
  unfold illegalWord
  split <;> rfl

@[simp] theorem lineStep_device (r : RxRecord) (s : State) : (lineStep r s).device = s.device := by
  obtain h | ⟨-, -, -, h⟩ | ⟨-, -, -, h⟩ := lineStep_cases r s <;> rw [h] <;> rfl

theorem drainStep_device {now : Millis} {s t : State} (h : drainStep now s = .next t) : t.device = s.device := by
  obtain ⟨-, rfl⟩ | ⟨r, rest, -, -, ⟨-, -, -, rfl⟩ | ⟨-, rfl⟩⟩ := drainStep_cases h <;> rfl

theorem ctrlStep_device_cases {cw : Word} {baud : Baud} {bytes : List Byte} {s t : State}
    (h : ctrlStep cw baud bytes s = .next t) :
    t.device = s.device ∨ (cw = 0x1000#16 ∧ s.mode = .uninit ∧ t.device = deviceOn baud) ∨
      (cw = 0x2000#16 ∧ s.mode = .ready ∧ t.device = deviceOff .tornDown) := by
  obtain ⟨-, ⟨i, hd, he⟩ | ⟨e, -, rfl⟩⟩ := ctrlStep_cases h
  · obtain hs | ⟨rfl, hm, hon⟩ | ⟨rfl, hm, hoff⟩ := exec_device_cases he
    · exact .inl hs
    · exact .inr (.inl ⟨decode_eq_init hd, hm, hon⟩)
    · exact .inr (.inr ⟨decode_eq_tdown hd, hm, hoff⟩)
  · exact .inl (illegalWord_device _)

/-- All that a step can do to the device. -/
theorem agentStep_device_cases {e : Event} {s t : State} (h : agentStep e s = .next t) :
    t.device = s.device ∨
      (∃ baud bytes, e = .ctrl 0x1000#16 baud bytes ∧ s.mode = .uninit ∧ t.device = deviceOn baud) ∨
      (∃ baud bytes, e = .ctrl 0x2000#16 baud bytes ∧ s.mode = .ready ∧ t.device = deviceOff .tornDown) ∨
      (e = .reset ∧ t.device = deviceOff .uninit) := by
  obtain ⟨r, -, rfl⟩ | ⟨now, -, hd⟩ | ⟨cw, baud, bytes, rfl, hc⟩ | ⟨rfl, rfl⟩ := agentStep_cases h
  · exact .inl (lineStep_device r s)
  · exact .inl (drainStep_device hd)
  · obtain hs | ⟨rfl, hm, hon⟩ | ⟨rfl, hm, hoff⟩ := ctrlStep_device_cases hc
    · exact .inl hs
    · exact .inr (.inl ⟨baud, bytes, rfl, hm, hon⟩)
    · exact .inr (.inr (.inl ⟨baud, bytes, rfl, hm, hoff⟩))
  · exact .inr (.inr (.inr ⟨rfl, rfl⟩))

/-- LINE's guard reads `rx_en` (R110): with it clear no record is taken. -/
theorem lineStep_of_rxEn_false (r : RxRecord) {s : State} (h : s.rxEn = false) : lineStep r s = s := by
  have hl : lineListening s ≠ true := by simp [lineListening_iff, h]
  obtain hs | ⟨hl', -⟩ | ⟨hl', -⟩ := lineStep_cases r s
  · exact hs
  · exact absurd hl' hl
  · exact absurd hl' hl

/-- Settles O44: a step that changes the mode changes the device, and only three steps do. -/
theorem onlyInitTdownAndResetWriteMode : Obligations.OnlyInitTdownAndResetWriteMode := by
  refine ⟨fun e s t h hm => ?_, rfl, rfl, rfl, fun m => by cases m <;> decide⟩
  obtain hs | ⟨baud, bytes, rfl, hu, hon⟩ | ⟨baud, bytes, rfl, hr, hoff⟩ | ⟨rfl, hoff⟩ := agentStep_device_cases h
  · exact absurd (State.mode_eq_of_device hs) hm
  · exact .inl ⟨baud, bytes, rfl, hu, (State.device_eq_deviceOn.mp hon).1⟩
  · exact .inr (.inl ⟨baud, bytes, rfl, hr, (State.device_eq_deviceOff.mp hoff).1⟩)
  · exact .inr (.inr ⟨rfl, (State.device_eq_deviceOff.mp hoff).1⟩)

/-- Settles O45: the link bits and the divisor are part of the device, whose three writers set or clear it whole. -/
theorem onlyInitTdownAndResetWriteTheLinkBits : Obligations.OnlyInitTdownAndResetWriteTheLinkBits := by
  refine ⟨fun e s t h hne => ?_, fun i s t h hm => ?_, fun r s hr => ?_⟩
  · obtain hs | ⟨baud, bytes, rfl, -, hon⟩ | ⟨baud, bytes, rfl, -, hoff⟩ | ⟨rfl, -⟩ := agentStep_device_cases h
    · exact absurd (congrArg Prod.snd hs) hne
    · exact .inl ⟨baud, bytes, rfl, (State.device_eq_deviceOn.mp hon).2⟩
    · exact .inr (.inl ⟨⟨baud, bytes, rfl⟩, (State.device_eq_deviceOff.mp hoff).2⟩)
    · exact .inr (.inr rfl)
  · obtain hs | ⟨rfl, -, hon⟩ | ⟨rfl, -, hoff⟩ := exec_device_cases h
    · exact absurd (State.mode_eq_of_device hs) hm
    · obtain ⟨-, hb, hmod, hrx, htx, -⟩ := State.device_eq_deviceOn.mp hon
      exact ⟨fun _ => ⟨hb, hmod, hrx, htx⟩, nofun⟩
    · obtain ⟨-, hb, hmod, hrx, htx, -⟩ := State.device_eq_deviceOff.mp hoff
      exact ⟨nofun, fun _ => ⟨hb, hmod, hrx, htx⟩⟩
  · exact congrArg Host.Outcome.next (lineStep_of_rxEn_false r hr)

end Machine
end Sys2Proof
end

section
/-! PROOFS. The transmit history (10_state.md R35): an operation's step with another history in `tx_out` is the same
step, with the same bytes appended. -/

namespace Sys2Proof.Machine

/-- The state with another transmit history. -/
def State.withTxOut (s : State) (history : List Byte) : State := { s with txOut := history }

theorem State.withTxOut_self (s : State) : s.withTxOut s.txOut = s := rfl

/-- What an admitted operation writes to the transmit register: only SENDB and SEND write to it (R126, R180). -/
def sentBy (bytes : List Byte) : Instr → List Byte
  | .sendb => bytes
  | .send cmd => sendFrame cmd bytes
  | .init | .tdown | .pop | .peek _ | .flush | .stat | .parse => []

/-- An operation that writes a byte is SENDB or SEND. -/
theorem sentBy_ne_nil {bytes : List Byte} {i : Instr} (h : sentBy bytes i ≠ []) :
    (i = .sendb ∧ sentBy bytes i = bytes) ∨ ∃ cmd, i = .send cmd ∧ sentBy bytes i = sendFrame cmd bytes := by
  cases i with
  | sendb => exact .inl ⟨rfl, rfl⟩
  | send cmd => exact .inr ⟨cmd, rfl, rfl⟩
  | init | tdown | pop | peek off | flush | stat | parse => exact absurd rfl h

theorem State.PoppedFrom.withTxOut_eq {s t : State} (h : s.PoppedFrom t) (history : List Byte) :
    t.withUnread s.brg s.lastRxMs history = t.withTxOut (history ++ []) := by
  obtain ⟨rd, count, draws, rfl⟩ := h
  rw [List.append_nil]
  rfl

/-- An operation's effect does not read the history, and appends to it what the operation sends. -/
theorem Effect.withTxOut {i : Instr} {s t : State} (h : Effect i s t) (history : List Byte) :
    Effect i (s.withTxOut history) (t.withTxOut (history ++ sentBy s.argBytes i)) := by
  have hs : s.withTxOut history = s.withUnread s.brg s.lastRxMs history := rfl
  cases i with
  | pop =>
    obtain ⟨b, e, u, hp, rfl⟩ := h
    refine ⟨b, e, u.withTxOut (history ++ []), ?_, rfl⟩
    rw [hs, popByte_withUnread, hp, ← (popByte_poppedFrom hp).withTxOut_eq]
    rfl
  | peek off =>
    obtain ⟨b, u, hr, rfl⟩ := h
    refine ⟨b, u.withTxOut (history ++ []), ?_, rfl⟩
    rw [hs, readCell_withUnread, ← (readCell_poppedFrom hr).withTxOut_eq]
    exact congrArg (Option.map _) hr
  | parse =>
    obtain ⟨p, u, hp, rfl⟩ := h
    refine ⟨p, u.withTxOut (history ++ []), ?_, rfl⟩
    rw [hs, parseFrame_withUnread, hp, ← (parseFrame_poppedFrom hp).withTxOut_eq]
    rfl
  | sendb | send cmd =>
    cases h
    rfl
  | init | tdown | flush | stat =>
    cases h
    simp only [sentBy, List.append_nil]
    rfl

/-- An operation sends nothing or, admitted, its own bytes, whatever the history. -/
theorem exec_withTxOut {i : Instr} {s t : State} (h : exec i s = .next t) :
    ∃ sent, (sent ≠ [] → sent = sentBy s.argBytes i) ∧
      ∀ history, exec i (s.withTxOut history) = .next (t.withTxOut (history ++ sent)) := by
  have hadm : ∀ history, admission i (s.withTxOut history) = admission i s := fun _ => admission_withUnread i s
  obtain ⟨ha, rfl⟩ | ⟨code, ha, rfl⟩ | ⟨ha, he⟩ := exec_cases h
  · refine ⟨[], nofun, fun history => ?_⟩
    rw [exec_refuse ((hadm history).trans ha), List.append_nil]
    rfl
  · refine ⟨[], nofun, fun history => ?_⟩
    rw [exec_raise ((hadm history).trans ha), List.append_nil]
    rfl
  · exact ⟨sentBy s.argBytes i, fun _ => rfl, fun history =>
      (exec_run ((hadm history).trans ha)).mpr (he.withTxOut history)⟩

theorem illegalWord_withTxOut (s : State) (history : List Byte) :
    illegalWord (s.withTxOut history) = (illegalWord s).withTxOut history := by
  unfold illegalWord
  rw [show frozen (s.withTxOut history) = frozen s from rfl]
  split <;> rfl

theorem lineStep_withTxOut (r : RxRecord) (s : State) (history : List Byte) :
    lineStep r (s.withTxOut history) = (lineStep r s).withTxOut history := by
  unfold lineStep
  rw [show lineListening (s.withTxOut history) = lineListening s from rfl,
    show (s.withTxOut history).oerr = s.oerr from rfl,
    show peripheralFull (s.withTxOut history) = peripheralFull s from rfl]
  split_ifs <;> rfl

/-! DRAIN in each of its cases: the converse of `drainStep_cases`. -/

theorem drainStep_disabled {now : Millis} {s : State} (h : drainEnabled s = false) : drainStep now s = .next s := by
  simp [drainStep, h]

theorem drainStep_append {now : Millis} {s : State} {r : RxRecord} {rest : List RxRecord}
    (he : drainEnabled s = true) (hr : s.hwRx = r :: rest) (hc : s.count < s.params.capacity)
    (hclean : recordClean r = true) (hw : s.wr < s.params.capacity) :
    drainStep now s = .next (({ s.takeRecord rest with q := s.q.write s.wr r.b } : State).appendOne now) := by
  have hcell : writeCell (s.takeRecord rest) s.wr r.b = some { s.takeRecord rest with q := s.q.write s.wr r.b } :=
    writeCell_in_range r.b hw
  simp [drainStep, drainAppend, he, hr, bufferHasRoom, hc, hclean, hcell]

theorem drainStep_drop {now : Millis} {s : State} {r : RxRecord} {rest : List RxRecord}
    (he : drainEnabled s = true) (hr : s.hwRx = r :: rest)
    (hdrop : ¬ (s.count < s.params.capacity ∧ recordClean r = true)) :
    drainStep now s = .next (s.takeRecord rest) := by
  have hk : ¬ (bufferHasRoom s && recordClean r) = true := by simpa [bufferHasRoom] using hdrop
  simp only [drainStep, he, hr, if_true, if_neg hk]

theorem drainStep_withTxOut {now : Millis} {s t : State} (h : drainStep now s = .next t) (history : List Byte) :
    drainStep now (s.withTxOut history) = .next (t.withTxOut history) := by
  obtain ⟨he, rfl⟩ | ⟨r, rest, he, hr, ⟨hc, hclean, hw, rfl⟩ | ⟨hdrop, rfl⟩⟩ := drainStep_cases h
  · exact drainStep_disabled he
  · exact drainStep_append (s := s.withTxOut history) he hr hc hclean hw
  · exact drainStep_drop (s := s.withTxOut history) he hr hdrop

/-! CTRL in its two cases: the converse of `ctrlStep_cases`. -/

theorem ctrlStep_of_legal {cw : Word} {baud : Baud} {bytes : List Byte} {s : State} {i : Instr}
    (hb : bytes.length ≤ maxArg) (hd : decode cw = .ok i) :
    ctrlStep cw baud bytes s = exec i (s.present baud bytes) := by
  simp [ctrlStep, argBytesWellFormed, hb, hd]

theorem ctrlStep_of_illegal {cw : Word} {baud : Baud} {bytes : List Byte} {s : State} {e : IllegalWord}
    (hb : bytes.length ≤ maxArg) (hd : decode cw = .error e) :
    ctrlStep cw baud bytes s = .next (illegalWord (s.present baud bytes)) := by
  simp [ctrlStep, argBytesWellFormed, hb, hd]

/-- A CTRL step sends nothing or what SENDB or SEND sends of the bytes presented, whatever the history. -/
theorem ctrlStep_withTxOut {cw : Word} {baud : Baud} {bytes : List Byte} {s t : State}
    (h : ctrlStep cw baud bytes s = .next t) :
    ∃ sent, (sent ≠ [] → (decode cw = .ok .sendb ∧ sent = bytes) ∨
        ∃ cmd, decode cw = .ok (.send cmd) ∧ sent = sendFrame cmd bytes) ∧
      ∀ history, ctrlStep cw baud bytes (s.withTxOut history) = .next (t.withTxOut (history ++ sent)) := by
  obtain ⟨hb, ⟨i, hd, he⟩ | ⟨e, hd, rfl⟩⟩ := ctrlStep_cases h
  · obtain ⟨sent, hsent, hrun⟩ := exec_withTxOut he
    refine ⟨sent, fun hne => ?_, fun history => ?_⟩
    · obtain rfl := hsent hne
      rw [hd]
      simpa using sentBy_ne_nil hne
    · exact (ctrlStep_of_legal hb hd).trans (hrun history)
  · refine ⟨[], nofun, fun history => ?_⟩
    rw [List.append_nil, ← illegalWord_withTxOut]
    exact ctrlStep_of_illegal hb hd

/-- Settles O46: each agent's step with another history is the same step; its own history is one of them. -/
theorem transmitHistoryOnlyGrows : Obligations.TransmitHistoryOnlyGrows := by
  intro e s t h hreset
  have hsame : ∃ sent, (sent ≠ [] → ∃ cw baud bytes, e = .ctrl cw baud bytes ∧
        ((decode cw = .ok .sendb ∧ sent = bytes) ∨
          ∃ cmd, decode cw = .ok (.send cmd) ∧ sent = sendFrame cmd bytes)) ∧
      ∀ history, agentStep e (s.withTxOut history) = .next (t.withTxOut (history ++ sent)) := by
    obtain ⟨r, rfl, rfl⟩ | ⟨now, rfl, hd⟩ | ⟨cw, baud, bytes, rfl, hc⟩ | ⟨rfl, -⟩ := agentStep_cases h
    · refine ⟨[], nofun, fun history => ?_⟩
      rw [List.append_nil, ← lineStep_withTxOut]
      rfl
    · refine ⟨[], nofun, fun history => ?_⟩
      rw [List.append_nil]
      exact drainStep_withTxOut hd history
    · obtain ⟨sent, hsent, hrun⟩ := ctrlStep_withTxOut hc
      exact ⟨sent, fun hne => ⟨cw, baud, bytes, rfl, hsent hne⟩, hrun⟩
    · exact absurd rfl hreset
  obtain ⟨sent, hsent, hrun⟩ := hsame
  refine ⟨sent, ?_, hsent, hrun⟩
  have hown : t = t.withTxOut (s.txOut ++ sent) := by
    have hrun' := hrun s.txOut
    rw [State.withTxOut_self, h] at hrun'
    exact Host.Outcome.next.inj hrun'
  exact congrArg State.txOut hown

end Sys2Proof.Machine
end

section
/-! PROOFS. The result port (10_state.md R36): an operation delivers one record, LINE, DRAIN and reset none. -/

namespace Sys2Proof.Machine

theorem State.PoppedFrom.results_eq {s t : State} (h : s.PoppedFrom t) : t.results = s.results := by
  obtain ⟨rd, count, draws, rfl⟩ := h
  rfl

/-- `k` POPZs read `k` bytes (R165). -/
theorem popMany_length {n : Nat} {s t : State} {bs : List Byte} (h : popMany n s = some (bs, t)) : bs.length = n := by
  induction n generalizing s bs with
  | zero =>
    obtain ⟨-, rfl, -⟩ | ⟨m, b, cs, u, hm, -⟩ := popMany_cases h
    · rfl
    · cases hm
  | succ n ih =>
    obtain ⟨h0, -⟩ | ⟨m, b, cs, u, hm, rfl, -, hcs⟩ := popMany_cases h
    · cases h0
    · cases hm
      exact congrArg (· + 1) (ih hcs)

/-- The packet's payload has as many bytes as its field `k` says. -/
def Packet.PayloadFits (p : Packet) : Prop := ∀ f, (p = .ok f ∨ p = .bad f) → f.payload.length = f.k.toNat

theorem Packet.incomplete_payloadFits : Packet.incomplete.PayloadFits := by
  rintro f (hf | hf) <;> cases hf

theorem consumeFrame_payloadFits {s t : State} {p : Packet} (h : consumeFrame s = some (p, t)) : p.PayloadFits := by
  obtain ⟨cmd, lb, body, chk, s1, s2, s3, -, -, hbody, -, rfl⟩ := consumeFrame_cases h
  have hlen := popMany_length hbody
  intro f hf
  split at hf
  · obtain hf | hf := hf <;> cases hf
    exact hlen
  · obtain hf | hf := hf <;> cases hf
    exact hlen

theorem parseFrame_payloadFits {s t : State} {p : Packet} (h : parseFrame s = some (p, t)) : p.PayloadFits := by
  obtain ⟨-, rfl, -⟩ | ⟨len, u, -, -, ⟨-, rfl, -⟩ | ⟨-, hf⟩⟩ := parseFrame_cases h
  · exact Packet.incomplete_payloadFits
  · exact Packet.incomplete_payloadFits
  · exact consumeFrame_payloadFits hf

/-- POP reports `empty` exactly where the count is 0, and the null byte there (R117, R118). -/
theorem popByte_empty_iff {s t : State} {b : Byte} {e : Bool} (h : popByte s = some (b, e, t)) :
    (e = true ↔ s.count = 0) ∧ (e = true → b = 0x00#8) := by
  obtain ⟨hc, rfl, rfl, -⟩ | ⟨hc, rfl, -⟩ := popByte_cases h
  · exact ⟨iff_of_true rfl hc, fun _ => rfl⟩
  · exact ⟨iff_of_false Bool.false_ne_true hc, nofun⟩

/-- The results that the word `cw` may have in a step from `s` to `t`: R36's table. -/
def ResultAllowed (cw : Word) (s t : State) : Result → Prop
  | .ack => decode cw ∈ [.ok .init, .ok .tdown, .ok .flush, .ok .sendb] ∨ ∃ cmd, decode cw = .ok (.send cmd)
  | .byte data empty => (decode cw = .ok .pop ∧ (empty = true ↔ s.count = 0) ∧ (empty = true → data = 0x00#8)) ∨
      ((∃ off, decode cw = .ok (.peek off)) ∧ empty = false)
  | .status _ => decode cw = .ok .stat
  | .packet p => decode cw = .ok .parse ∧ p.PayloadFits
  | .fault code => s.fault = .noFault ∧ t.fault ≠ .noFault ∧ code = t.fault.code
  | .refused => s.fault ≠ .noFault

/-- An admitted operation delivers one record, of the kind its row of R36 gives. -/
theorem Effect.result {cw : Word} {i : Instr} {s t : State} (hd : decode cw = .ok i) (h : Effect i s t) :
    ∃ r, t.results = s.results ++ [r] ∧ ResultAllowed cw s t r := by
  cases i with
  | pop =>
    obtain ⟨b, e, u, hp, rfl⟩ := h
    refine ⟨.byte b e, ?_, .inl ⟨hd, popByte_empty_iff hp⟩⟩
    rw [State.deliver_results, (popByte_poppedFrom hp).results_eq]
  | peek off =>
    obtain ⟨b, u, hr, rfl⟩ := h
    refine ⟨.byte b false, ?_, .inr ⟨⟨off, hd⟩, rfl⟩⟩
    rw [State.deliver_results, (readCell_poppedFrom hr).results_eq]
  | parse =>
    obtain ⟨p, u, hp, rfl⟩ := h
    refine ⟨.packet p, ?_, hd, parseFrame_payloadFits hp⟩
    rw [State.deliver_results, (parseFrame_poppedFrom hp).results_eq]
  | stat =>
    cases h
    exact ⟨_, rfl, hd⟩
  | send cmd =>
    cases h
    exact ⟨.ack, rfl, .inr ⟨cmd, hd⟩⟩
  | init | tdown | flush | sendb =>
    cases h
    exact ⟨.ack, rfl, .inl (by simp [hd])⟩

/-- A fault is raised only where none is recorded, and it is one (R201, R202). -/
theorem raise_result {cw : Word} {s : State} {code : FaultCode} (hs : s.fault = .noFault) (hc : code ≠ .noFault) :
    ∃ r, (s.raise code).results = s.results ++ [r] ∧ ResultAllowed cw s (s.raise code) r :=
  ⟨.fault code.code, rfl, hs, hc, rfl⟩

theorem refuse_result {cw : Word} {s : State} (hs : s.fault ≠ .noFault) :
    ∃ r, s.refuse.results = s.results ++ [r] ∧ ResultAllowed cw s s.refuse r :=
  ⟨.refused, rfl, hs⟩

theorem admission_raise_ne_noFault {i : Instr} {s : State} {code : FaultCode} (h : admission i s = .raise code) :
    code ≠ .noFault := by
  obtain ⟨-, ⟨rfl, -⟩ | ⟨rfl, -⟩ | ⟨rfl, -⟩ | ⟨rfl, -⟩⟩ := admission_raise_cases h <;> decide

theorem exec_result {cw : Word} {i : Instr} {s t : State} (hd : decode cw = .ok i) (h : exec i s = .next t) :
    ∃ r, t.results = s.results ++ [r] ∧ ResultAllowed cw s t r := by
  obtain ⟨ha, rfl⟩ | ⟨code, ha, rfl⟩ | ⟨-, he⟩ := exec_cases h
  · exact refuse_result (admission_refuse_frozen ha)
  · exact raise_result (admission_raise_cases ha).1 (admission_raise_ne_noFault ha)
  · exact he.result hd

theorem illegalWord_result {cw : Word} (s : State) :
    ∃ r, (illegalWord s).results = s.results ++ [r] ∧ ResultAllowed cw s (illegalWord s) r := by
  unfold illegalWord
  split
  · exact refuse_result (frozen_eq_true.mp ‹_›)
  · exact raise_result (frozen_eq_false.mp (by simpa using ‹¬ frozen s = true›)) (by decide)

theorem ctrlStep_result {cw : Word} {baud : Baud} {bytes : List Byte} {s t : State}
    (h : ctrlStep cw baud bytes s = .next t) : ∃ r, t.results = s.results ++ [r] ∧ ResultAllowed cw s t r := by
  obtain ⟨r, hr, hallowed⟩ : ∃ r, t.results = (s.present baud bytes).results ++ [r] ∧
      ResultAllowed cw (s.present baud bytes) t r := by
    obtain ⟨-, ⟨i, hd, he⟩ | ⟨e, -, rfl⟩⟩ := ctrlStep_cases h
    · exact exec_result hd he
    · exact illegalWord_result (s.present baud bytes)
  -- the table reads only the fault and the count, which presenting the operands keeps
  refine ⟨r, hr, ?_⟩
  cases r <;> exact hallowed

@[simp] theorem lineStep_results (r : RxRecord) (s : State) : (lineStep r s).results = s.results := by
  obtain h | ⟨-, -, -, h⟩ | ⟨-, -, -, h⟩ := lineStep_cases r s <;> rw [h]

theorem drainStep_results {now : Millis} {s t : State} (h : drainStep now s = .next t) : t.results = s.results := by
  obtain ⟨-, rfl⟩ | ⟨r, rest, -, -, ⟨-, -, -, rfl⟩ | ⟨-, rfl⟩⟩ := drainStep_cases h <;> rfl

/-- Settles O48: the CTRL step delivers one record that R36's table allows, every other step none. -/
theorem eachOperationReturnsOneResult : Obligations.EachOperationReturnsOneResult := by
  refine ⟨fun cw baud bytes s t h => ?_, fun e s t h hctrl => ?_, rfl, rfl, rfl⟩
  · obtain ⟨r, hr, hallowed⟩ := ctrlStep_result h
    refine ⟨r, hr, ?_⟩
    cases r <;> exact hallowed
  · obtain ⟨r, -, rfl⟩ | ⟨now, -, hd⟩ | ⟨cw, baud, bytes, he, -⟩ | ⟨-, rfl⟩ := agentStep_cases h
    · exact lineStep_results r s
    · exact drainStep_results hd
    · exact absurd he (hctrl cw baud bytes)
    · exact State.physicalReset_results s

end Sys2Proof.Machine
end

section
/-! PROOFS. Legal and illegal command words (30_encoding.md R81 to R84): a word is illegal exactly where it is the word
of no operation, and what an illegal word does. -/

namespace Sys2Proof

theorem decode_encode (i : Instr) : decode (encode i) = .ok i := by
  simp only [decode, rsvField_encode, opField_encode, imm8Field_encode, if_true]
  cases i <;> simp [decodeOp, opcodeOf, withoutOperand, operandOf]

/-- The word of an operation is none that R84 lists. -/
theorem illegal_encode : ∀ i : Instr, illegal (encode i) = false
  | .init => Laws.LegalWord.init.1
  | .tdown => Laws.LegalWord.tdown.1
  | .pop => Laws.LegalWord.pop.1
  | .peek off => (Laws.LegalWord.peek off).1
  | .flush => Laws.LegalWord.flush.1
  | .stat => Laws.LegalWord.stat.1
  | .sendb => Laws.LegalWord.sendb.1
  | .parse => Laws.LegalWord.parse.1
  | .send cmd => (Laws.LegalWord.send cmd).1

/-- `illegal` is R84's list of cases. -/
theorem illegal_iff (w : Word) : illegal w = true ↔
    opField w = 0x0#4 ∨ 0xA#4 ≤ opField w ∨ rsvField w ≠ 0#4 ∨
      (imm8Field w ≠ 0x00#8 ∧ opField w ≠ 0x4#4 ∧ opField w ≠ 0x9#4) := by
  simp [illegal, or_assoc, and_assoc]

/-- The codes that R84 does not reserve are `0x1` to `0x9`. -/
theorem opcode_cases : ∀ op : BitVec 4, op ≠ 0x0#4 → ¬ 0xA#4 ≤ op → op = 0x1#4 ∨ op = 0x2#4 ∨ op = 0x3#4 ∨
    op = 0x4#4 ∨ op = 0x5#4 ∨ op = 0x6#4 ∨ op = 0x7#4 ∨ op = 0x8#4 ∨ op = 0x9#4 := by decide

/-- A code of R81 with an operand that R82 admits is an operation's. -/
theorem exists_instr_of_fields {op : BitVec 4} {imm8 : Byte} (h0 : op ≠ 0x0#4) (hA : ¬ 0xA#4 ≤ op)
    (himm : op ≠ 0x4#4 → op ≠ 0x9#4 → imm8 = 0x00#8) : ∃ i, opcodeOf i = op ∧ operandOf i = imm8 := by
  obtain rfl | rfl | rfl | rfl | rfl | rfl | rfl | rfl | rfl := opcode_cases op h0 hA
  · exact ⟨.init, rfl, (himm (by decide) (by decide)).symm⟩
  · exact ⟨.tdown, rfl, (himm (by decide) (by decide)).symm⟩
  · exact ⟨.pop, rfl, (himm (by decide) (by decide)).symm⟩
  · exact ⟨.peek imm8, rfl, rfl⟩
  · exact ⟨.flush, rfl, (himm (by decide) (by decide)).symm⟩
  · exact ⟨.stat, rfl, (himm (by decide) (by decide)).symm⟩
  · exact ⟨.sendb, rfl, (himm (by decide) (by decide)).symm⟩
  · exact ⟨.parse, rfl, (himm (by decide) (by decide)).symm⟩
  · exact ⟨.send imm8, rfl, rfl⟩

/-- A word that R84 does not list is an operation's. -/
theorem exists_encode_of_not_illegal {w : Word} (h : illegal w ≠ true) : ∃ i, w = encode i := by
  rw [Ne, illegal_iff] at h
  push Not at h
  obtain ⟨h0, hA, hrsv, himm⟩ := h
  obtain ⟨i, hop, hoperand⟩ := exists_instr_of_fields h0 hA
    (fun h4 h9 => by_contra fun hne => h9 (himm hne h4))
  refine ⟨i, ?_⟩
  rw [word_eq_fields w, hrsv, ← hop, ← hoperand]
  rfl

/-- The decoder rejects the words that R84 lists and no other. -/
theorem decode_error_iff (w : Word) : (∃ e, decode w = .error e) ↔ illegal w = true := by
  constructor
  · rintro ⟨e, he⟩
    by_contra hlegal
    obtain ⟨i, rfl⟩ := exists_encode_of_not_illegal hlegal
    cases (decode_encode i).symm.trans he
  · intro hillegal
    cases hd : decode w with
    | error e => exact ⟨e, rfl⟩
    | ok i =>
      rw [eq_encode_of_decode hd, illegal_encode] at hillegal
      cases hillegal

namespace Machine

theorem illegalWord_of_noFault {s : State} (h : s.fault = .noFault) : illegalWord s = s.raise .illegalOp := by
  simp [illegalWord, frozen_eq_false.mpr h]

theorem illegalWord_of_fault {s : State} (h : s.fault ≠ .noFault) : illegalWord s = s.refuse := by
  simp [illegalWord, frozen_eq_true.mpr h]

/-- Settles O3: the operations' words are the legal ones, and an illegal word raises or is refused. -/
theorem illegalWordsRaiseIllegalOp : Obligations.IllegalWordsRaiseIllegalOp := by
  intro w
  refine ⟨(decode_error_iff w).trans (illegal_iff w), fun e baud bytes s hd hb => ?_⟩
  have hstep : agentStep (.ctrl w baud bytes) s = .next (illegalWord (s.present baud bytes)) :=
    ctrlStep_of_illegal hb hd
  constructor <;> intro hs <;> rw [hstep]
  · rw [illegalWord_of_noFault (s := s.present baud bytes) hs]
    rfl
  · rw [illegalWord_of_fault (s := s.present baud bytes) hs]
    rfl

end Machine
end Sys2Proof
end

section
/-! PROOFS. The frame SEND transmits, byte by byte (30_encoding.md R87; 41_codec.md R180 to R182). -/

namespace Sys2Proof.Machine

theorem sendPayload_eq_ite (d : List Byte) : sendPayload d = if d = [] then [0x00#8] else d := by
  simp [sendPayload]

theorem sendPayload_length_pos (d : List Byte) : 1 ≤ (sendPayload d).length := by
  unfold sendPayload
  split
  · exact le_rfl
  · exact Nat.pos_of_ne_zero ‹_›

theorem sendPayload_length_le {d : List Byte} (h : d.length ≤ maxPayload) : (sendPayload d).length ≤ maxPayload := by
  unfold sendPayload
  split
  · decide
  · exact h

/-- The length byte does not wrap for a payload that SEND accepts (R9). -/
theorem frameLength_toNat {p : List Byte} (h : p.length ≤ maxPayload) : (frameLength p).toNat = p.length + 2 := by
  have hfits : p.length + 2 < 2 ^ 8 := by
    unfold maxPayload at h
    omega
  rw [frameLength, BitVec.toNat_ofNat, Nat.mod_eq_of_lt hfits]

theorem sendFrame_length (cmd : Byte) (d : List Byte) :
    (sendFrame cmd d).length = (sendPayload d).length + 3 := by
  simp [sendFrame]

theorem sendFrame_command (cmd : Byte) (d : List Byte) : (sendFrame cmd d)[0]? = some cmd := rfl

theorem sendFrame_lengthByte (cmd : Byte) (d : List Byte) :
    (sendFrame cmd d)[1]? = some (frameLength (sendPayload d)) := rfl

theorem sendFrame_payload (cmd : Byte) {d : List Byte} {j : Nat} (hj : j < (sendPayload d).length) :
    (sendFrame cmd d)[j + 2]? = (sendPayload d)[j]? := by
  simp [sendFrame, List.getElem?_append_left hj]

theorem sendFrame_checkByte (cmd : Byte) (d : List Byte) : (sendFrame cmd d)[(sendPayload d).length + 2]? =
    some (cmd ^^^ frameLength (sendPayload d) ^^^ xorAll (sendPayload d)) := by
  simp [sendFrame]

/-- Settles O25: the bytes of the frame, each at its place. -/
theorem transmittedFrameShape : Obligations.TransmittedFrameShape := by
  intro cmd d p hd hp
  obtain rfl : p = sendPayload d := hp.trans (sendPayload_eq_ite d).symm
  have hlen : (frameLength (sendPayload d)).toNat = (sendPayload d).length + 2 :=
    frameLength_toNat (sendPayload_length_le hd)
  exact ⟨sendPayload_length_pos d, sendFrame_length cmd d, sendFrame_command cmd d,
    ⟨frameLength (sendPayload d), sendFrame_lengthByte cmd d, hlen, sendFrame_checkByte cmd d⟩,
    fun j hj => sendFrame_payload cmd hj⟩

end Sys2Proof.Machine
end

section
/-! PROOFS. The assembler's lines (30_encoding.md R90, R92). -/

namespace Sys2Proof

/-- The word of an operation, its operand field in the low byte (R80). -/
theorem encode_eq_or (i : Instr) :
    encode i = ((opcodeOf i).setWidth 16 <<< 12) ||| (operandOf i).setWidth 16 := by
  rw [← BitVec.setWidth_eq (encode i), encode, BitVec.setWidth_append_eq_shiftLeft_setWidth_or,
    BitVec.setWidth_append_eq_shiftLeft_setWidth_or]
  simp

theorem encode_peek (off : Byte) : encode (.peek off) = 0x4000#16 ||| off.setWidth 16 := encode_eq_or (.peek off)

theorem encode_send (cmd : Byte) : encode (.send cmd) = 0x9000#16 ||| cmd.setWidth 16 := encode_eq_or (.send cmd)

namespace Machine

theorem asmEvents_sendb {bytes : List Byte} (h : bytes.length ≤ maxArg) :
    asmEvents (.sendb bytes) = some [.ctrl (encode .sendb) 0#32 bytes] := by
  simp [asmEvents, AsmLine.wellFormed, argBytesWellFormed, h]

theorem asmEvents_send (cmd : Byte) {bytes : List Byte} (h : bytes.length ≤ maxArg) :
    asmEvents (.send cmd bytes) = some [.ctrl (encode (.send cmd)) 0#32 bytes] := by
  simp [asmEvents, AsmLine.wellFormed, argBytesWellFormed, h]

/-- Settles O5: a line without a byte list is its event by definition, with the word that the encoder gives. -/
theorem assemblerLinesStandForWords : Obligations.AssemblerLinesStandForWords := by
  refine ⟨fun baud => ⟨[], rfl⟩, ⟨0#32, [], rfl⟩, ⟨0#32, [], rfl⟩, fun off => ⟨0#32, [], ?peek⟩, ⟨0#32, [], rfl⟩,
    ⟨0#32, [], rfl⟩, fun bs hbs => ⟨0#32, asmEvents_sendb hbs⟩, ⟨0#32, [], rfl⟩,
    fun cmd bs hbs => ⟨0#32, ?send⟩, fun _ _ _ => rfl, fun _ => rfl, fun _ _ _ _ => rfl, rfl⟩
  case peek =>
    rw [← encode_peek]
    rfl
  case send =>
    rw [← encode_send]
    exact asmEvents_send cmd hbs

end Machine
end Sys2Proof
end

section
/-! PROOFS. LINE and DRAIN in each of their cases (40_transport.md R110 to R115). -/

namespace Sys2Proof.Machine

/-! LINE in each of its cases: the converse of `lineStep_cases`. -/

theorem lineStep_of_not_listening (r : RxRecord) {s : State} (h : ¬ lineListening s = true) : lineStep r s = s := by
  simp [lineStep, h]

theorem lineStep_of_overrun (r : RxRecord) {s : State} (ho : s.oerr = true) : lineStep r s = s := by
  simp [lineStep, ho]

theorem lineStep_full (r : RxRecord) {s : State} (hl : lineListening s = true) (ho : s.oerr = false)
    (hfull : s.hwRx.length = s.params.hwRxDepth) : lineStep r s = { s with oerr := true } := by
  simp [lineStep, hl, ho, peripheralFull, hfull]

theorem lineStep_hold (r : RxRecord) {s : State} (hl : lineListening s = true) (ho : s.oerr = false)
    (hroom : s.hwRx.length ≠ s.params.hwRxDepth) : lineStep r s = { s with hwRx := s.hwRx ++ [r] } := by
  simp [lineStep, hl, ho, peripheralFull, hroom]

/-- Settles O35: LINE's guard is R110's, and past it the overrun flag and the room decide. -/
theorem lineHoldsOrLosesTheRecord : Obligations.LineHoldsOrLosesTheRecord := by
  refine fun r s => ⟨fun hdeaf => ?_, fun hf hm hmod hrx => ?_⟩
  · have hl : ¬ lineListening s = true := by
      rw [lineListening_iff]
      rintro ⟨hf, hm, hmod, hrx⟩
      simp [hf, hm, hmod, hrx] at hdeaf
    exact congrArg Host.Outcome.next (lineStep_of_not_listening r hl)
  · have hl : lineListening s = true := (lineListening_iff s).mpr ⟨hf, hm, hmod, hrx⟩
    exact ⟨fun ho => congrArg Host.Outcome.next (lineStep_of_overrun r ho),
      fun ho hfull => congrArg Host.Outcome.next (lineStep_full r hl ho hfull),
      fun ho hroom => congrArg Host.Outcome.next (lineStep_hold r hl ho hroom)⟩

theorem drainEnabled_iff_ne_nil (s : State) :
    drainEnabled s = true ↔ s.fault = .noFault ∧ s.mode = .ready ∧ s.hwRx ≠ [] := by
  rw [drainEnabled_iff, List.length_pos_iff]

theorem recordClean_iff (r : RxRecord) : recordClean r = true ↔ r.fe = false ∧ r.pe = false := by
  simp [recordClean]

/-- Settles O36: where DRAIN has a step, a byte without an error flag is kept while there is room. -/
theorem drainAppendsOrDropsTheHeadRecord : Obligations.DrainAppendsOrDropsTheHeadRecord := by
  refine fun now s => ⟨drainEnabled_iff_ne_nil s, fun b fe pe rest hrun hr => ?_⟩
  obtain ⟨hf, hm⟩ := hrun
  have he : drainEnabled s = true := (drainEnabled_iff_ne_nil s).mpr ⟨hf, hm, by simp [hr]⟩
  refine ⟨fun hc hfe hpe hw => ?append, fun hlost => ?drop⟩
  case append => exact drainStep_append he hr hc ((recordClean_iff _).mpr ⟨hfe, hpe⟩) hw
  case drop =>
    refine drainStep_drop he hr fun ⟨hc, hclean⟩ => ?_
    obtain ⟨hfe, hpe⟩ := (recordClean_iff _).mp hclean
    obtain hfull | hfe' | hpe' := hlost
    · exact absurd hc (Nat.not_lt.mpr hfull)
    · exact Bool.false_ne_true (hfe.symm.trans hfe')
    · exact Bool.false_ne_true (hpe.symm.trans hpe')

end Sys2Proof.Machine
end

section
/-! PROOFS. The serial transport operations in each mode (40_transport.md R117 to R128). The two faults that a wrong mode
raises are the same for all of them (R204), so they are stated once. -/

namespace Sys2Proof.Machine

/-! ## An operation by the mode it finds -/

theorem exec_notReady {i : Instr} {s : State} (hf : s.fault = .noFault) (hm : s.mode = .uninit) (hi : i ≠ .init)
    (hs : i ≠ .stat) :
    exec i s = .next { s with fault := .notReady, results := s.results ++ [.fault 2#3] } :=
  exec_raise (admission_notReady hf hm hi hs)

theorem exec_tornDown {i : Instr} {s : State} (hf : s.fault = .noFault) (hm : s.mode = .tornDown) (hs : i ≠ .stat) :
    exec i s = .next { s with fault := .tornDown, results := s.results ++ [.fault 3#3] } :=
  exec_raise (admission_tornDown hf hm hs)

/-- In READY an operation but INIT has its effect; SEND, whose payload the checks bound, stands apart. -/
theorem exec_ready {i : Instr} {s t : State} (hf : s.fault = .noFault) (hm : s.mode = .ready) (hi : i ≠ .init)
    (hsend : ∀ cmd, i ≠ .send cmd) (h : Effect i s t) : exec i s = .next t :=
  (exec_run (admission_ready hf hm hi fun cmd hc => absurd hc (hsend cmd))).mpr h

theorem exec_stat (s : State) : exec .stat s = .next (s.deliver (.status (statusRecord s))) :=
  (exec_run (admission_stat s)).mpr rfl

/-! ## INIT, FLUSH and SENDB -/

/-- Settles O12: each mode decides INIT's check. -/
theorem initConstructsTheDevice : Obligations.InitConstructsTheDevice := fun _ hf =>
  ⟨fun hm => (exec_run (admission_init hf hm)).mpr rfl, fun hm => exec_raise (admission_reinit hf hm),
    fun hm => exec_tornDown hf hm nofun⟩

/-- Settles O20: FLUSH's effect in READY, the common faults elsewhere. -/
theorem flushEmptiesTheQueue : Obligations.FlushEmptiesTheQueue := fun _ hf =>
  ⟨fun hm => exec_ready hf hm nofun nofun rfl, fun hm => exec_notReady hf hm nofun nofun,
    fun hm => exec_tornDown hf hm nofun⟩

/-- Settles O23: SENDB's effect in READY, the common faults elsewhere. -/
theorem sendbTransmitsItsBytes : Obligations.SendbTransmitsItsBytes := fun _ hf =>
  ⟨fun hm => exec_ready hf hm nofun nofun rfl, fun hm => exec_notReady hf hm nofun nofun,
    fun hm => exec_tornDown hf hm nofun⟩

/-! ## POP and PEEK -/

/-- Settles O15: the pop of an empty queue and of a byte in READY, the common faults elsewhere. -/
theorem popTakesTheOldestByte : Obligations.PopTakesTheOldestByte := fun s hf =>
  ⟨fun hm hc => exec_ready hf hm nofun nofun ⟨0x00#8, true, s, popByte_empty hc, rfl⟩,
    fun b hm hc hrd hb => exec_ready hf hm nofun nofun ⟨b, false, s.consumeOne, popByte_of_set hc hrd hb, rfl⟩,
    fun hm => exec_notReady hf hm nofun nofun, fun hm => exec_tornDown hf hm nofun⟩

/-- Settles O16: a read of the cell ahead, which leaves the state or takes a draw. -/
theorem peekLooksAheadWithoutConsuming : Obligations.PeekLooksAheadWithoutConsuming := fun s off hf =>
  ⟨fun b hm hcap hb => exec_ready hf hm nofun nofun ⟨b, s, readCell_of_set (peekIndex_lt off hcap) hb, rfl⟩,
    fun hm hcap hunset => ⟨Config.draw s.draws, s.draws + 1, exec_ready hf hm nofun nofun
      ⟨Config.draw s.draws, s.countDraw, readCell_of_unset (peekIndex_lt off hcap) hunset, rfl⟩⟩,
    fun hm => exec_notReady hf hm nofun nofun, fun hm => exec_tornDown hf hm nofun⟩

/-! ## STAT -/

theorem bits16_toNat {n : Nat} (h : n < 65536) : (bits16 n).toNat = n := by
  simp [bits16, h, Nat.mod_eq_of_lt h]

/-- Settles O21: the record's fields are the state's, and a natural that fits 16 bits is shown as it is. -/
theorem statReportsTheState : Obligations.StatReportsTheState := by
  refine fun s hlevel hcount hrd hwr => ⟨statusRecord s, exec_stat s, ?mode, ?fault, rfl, rfl, rfl, rfl, rfl,
    bits16_toNat hlevel, bits16_toNat hcount, bits16_toNat hrd, bits16_toNat hwr, rfl, rfl⟩
  case mode => cases hm : s.mode <;> simp [statusRecord, hm, Mode.code]
  case fault => cases hf : s.fault <;> simp [statusRecord, hf, FaultCode.code]

end Sys2Proof.Machine
end

section
/-! PROOFS. After TDOWN (40_transport.md R124, R125): the block stays torn down, and what the peripheral holds stays
there, through every event but the physical reset. -/

namespace Sys2Proof.Machine

theorem State.PoppedFrom.hwRx_eq {s t : State} (h : s.PoppedFrom t) : t.hwRx = s.hwRx := by
  obtain ⟨rd, count, draws, rfl⟩ := h
  rfl

/-- No operation writes `hw_rx`: LINE and DRAIN own it (R67). -/
theorem Effect.hwRx_eq {i : Instr} {s t : State} (h : Effect i s t) : t.hwRx = s.hwRx := by
  cases i with
  | pop =>
    obtain ⟨b, e, u, hp, rfl⟩ := h
    exact (popByte_poppedFrom hp).hwRx_eq
  | peek off =>
    obtain ⟨b, u, hr, rfl⟩ := h
    exact (readCell_poppedFrom hr).hwRx_eq
  | parse =>
    obtain ⟨p, u, hp, rfl⟩ := h
    exact (parseFrame_poppedFrom hp).hwRx_eq
  | init | tdown | flush | stat | sendb | send cmd =>
    cases h
    rfl

theorem exec_hwRx {i : Instr} {s t : State} (h : exec i s = .next t) : t.hwRx = s.hwRx := by
  obtain ⟨-, rfl⟩ | ⟨code, -, rfl⟩ | ⟨-, he⟩ := exec_cases h
  · exact State.refuse_hwRx s
  · exact State.raise_hwRx s code
  · exact he.hwRx_eq

@[simp] theorem illegalWord_hwRx (s : State) : (illegalWord s).hwRx = s.hwRx := by
  unfold illegalWord
  split
  · exact State.refuse_hwRx s
  · exact State.raise_hwRx s .illegalOp

theorem ctrlStep_hwRx {cw : Word} {baud : Baud} {bytes : List Byte} {s t : State}
    (h : ctrlStep cw baud bytes s = .next t) : t.hwRx = s.hwRx := by
  obtain ⟨-, ⟨i, -, he⟩ | ⟨e, -, rfl⟩⟩ := ctrlStep_cases h
  · exact (exec_hwRx he).trans (State.present_hwRx s baud bytes)
  · exact illegalWord_hwRx (s.present baud bytes)

theorem lineListening_of_tornDown {s : State} (hm : s.mode = .tornDown) : ¬ lineListening s = true := by
  simp [lineListening_iff, hm]

theorem drainEnabled_of_tornDown {s : State} (hm : s.mode = .tornDown) : drainEnabled s = false := by
  simp [drainEnabled, hm]

/-- INIT and TDOWN, the other writers of the mode, want UNINIT and READY. -/
theorem agentStep_keeps_tornDown {e : Event} {s t : State} (h : agentStep e s = .next t) (he : e ≠ .reset)
    (hm : s.mode = .tornDown) : t.mode = .tornDown := by
  obtain hs | ⟨baud, bytes, -, hu, -⟩ | ⟨baud, bytes, -, hr, -⟩ | ⟨hreset, -⟩ := agentStep_device_cases h
  · exact (State.mode_eq_of_device hs).trans hm
  · cases hm.symm.trans hu
  · cases hm.symm.trans hr
  · exact absurd hreset he

/-- In TORN_DOWN neither LINE nor DRAIN reaches the peripheral. -/
theorem agentStep_hwRx_of_tornDown {e : Event} {s t : State} (h : agentStep e s = .next t) (he : e ≠ .reset)
    (hm : s.mode = .tornDown) : t.hwRx = s.hwRx := by
  obtain ⟨r, -, rfl⟩ | ⟨now, -, hd⟩ | ⟨cw, baud, bytes, -, hc⟩ | ⟨hreset, -⟩ := agentStep_cases h
  · rw [lineStep_of_not_listening r (lineListening_of_tornDown hm)]
  · rw [drainStep_disabled (drainEnabled_of_tornDown hm)] at hd
    cases hd
    rfl
  · exact ctrlStep_hwRx hc
  · exact absurd hreset he

theorem runEvents_tornDown {es : List Event} {s t : State} (hm : s.mode = .tornDown) (hes : Event.reset ∉ es)
    (h : runEvents es s = some t) : t.mode = .tornDown ∧ t.hwRx = s.hwRx := by
  refine runEvents_induction (fun u => u.mode = .tornDown ∧ u.hwRx = s.hwRx) ?_ ⟨hm, rfl⟩ h
  rintro e hmem u v ⟨humode, huheld⟩ hstep
  have he : e ≠ .reset := ne_of_mem_of_not_mem hmem hes
  exact ⟨agentStep_keeps_tornDown hstep he humode, (agentStep_hwRx_of_tornDown hstep he humode).trans huheld⟩

/-- Settles O13: TDOWN by the mode it finds, and what a run after it keeps. -/
theorem tdownDestroysTheDevice : Obligations.TdownDestroysTheDevice :=
  ⟨fun _ hf => ⟨fun hm => exec_ready hf hm nofun nofun rfl, fun hm => exec_notReady hf hm nofun nofun,
      fun hm => exec_tornDown hf hm nofun⟩,
    fun _ hm => ⟨drainEnabled_of_tornDown hm, fun _ _ hes h => (runEvents_tornDown hm hes h).2⟩⟩

/-- Settles O14: the common check of a torn-down block, STAT beside it, and the mode along a run. -/
theorem tornDownIsIrreversible : Obligations.TornDownIsIrreversible :=
  ⟨fun _ _ hf hm hs => exec_tornDown hf hm hs,
    fun s hm => ⟨statusRecord s, congrArg Mode.code hm, exec_stat s⟩,
    fun _ _ _ hm hes h => (runEvents_tornDown hm hes h).1⟩

end Sys2Proof.Machine
end

section
/-! PROOFS. VALIDATE as the left fold of XOR over the frame (41_codec.md R170). -/

namespace Sys2Proof.Machine

/-- The length byte of a payload length, modulo 256 (R164). -/
theorem ofNat_toNat_add_two (k : Byte) : BitVec.ofNat 8 (k.toNat + 2) = k + 2#8 := by
  rw [BitVec.ofNat_add, BitVec.ofNat_toNat, BitVec.setWidth_eq]

/-- Settles O31: the left fold is XOR of the bytes, which VALIDATE brackets to the left. -/
theorem validateIsTheXorFold : Obligations.ValidateIsTheXorFold := by
  intro cmd k chk p
  rw [foldl_xor, ofNat_toNat_add_two]
  simp [validate, BitVec.xor_assoc]

end Sys2Proof.Machine
end

section
/-! PROOFS. SEND in each mode (41_codec.md R180 to R184), and SENDS, which is SEND of a terminated text (R185, R91). -/

namespace Sys2Proof.Machine

/-- In READY SEND transmits the frame of a payload that fits (R180). -/
theorem exec_send_ready (cmd : Byte) {s : State} (hf : s.fault = .noFault) (hm : s.mode = .ready)
    (hl : s.argBytes.length ≤ maxPayload) :
    exec (.send cmd) s = .next ((s.transmit (sendFrame cmd s.argBytes)).deliver .ack) :=
  (exec_run (i := .send cmd) (admission_ready hf hm nofun fun _ _ => hl)).mpr rfl

/-- Settles O24: the frame in READY, ARG_LENGTH for a payload that does not fit, the common faults elsewhere. -/
theorem sendTransmitsOneFrame : Obligations.SendTransmitsOneFrame := by
  intro s cmd p len hf hp hlen
  obtain rfl : p = sendPayload s.argBytes := hp.trans (sendPayload_eq_ite _).symm
  subst hlen
  exact ⟨fun hm hl => exec_send_ready cmd hf hm hl, fun hm hl => exec_raise (admission_argLength hf hm hl),
    fun hm => exec_notReady hf hm nofun nofun, fun hm => exec_tornDown hf hm nofun⟩

theorem textWellFormed_iff (text : List Byte) :
    textWellFormed text = true ↔ text.length ≤ 252 ∧ 0x00#8 ∉ text := by
  simp [textWellFormed, List.forall_mem_ne']

theorem asmEvents_sends (cmd : Byte) {text : List Byte} (h : textWellFormed text = true) :
    asmEvents (.sends cmd text) = some [.ctrl (encode (.send cmd)) 0#32 (sendsData text)] := by
  simp [asmEvents, AsmLine.wellFormed, h]

theorem asmEvents_sends_eq_none (cmd : Byte) {text : List Byte} (h : ¬ textWellFormed text = true) :
    asmEvents (.sends cmd text) = none := by
  simp [asmEvents, AsmLine.wellFormed, h]

/-- A terminated text is never empty, so SEND transmits it as it is (R181, R185). -/
theorem sendPayload_sendsData (text : List Byte) : sendPayload (sendsData text) = sendsData text := by
  simp [sendPayload, sendsData]

theorem sendsData_length (text : List Byte) : (sendsData text).length = text.length + 1 := by
  simp [sendsData]

/-- Settles O27: the terminator makes one byte more, which the port and the length byte still carry. -/
theorem sendsForwardsTheTerminatedText : Obligations.SendsForwardsTheTerminatedText := by
  refine ⟨fun cmd text hlen hnull => ?line, fun cmd text hbad => ?noLine⟩
  case line =>
    have hline := asmEvents_sends cmd ((textWellFormed_iff text).mpr ⟨hlen, hnull⟩)
    have hfits : (sendsData text).length ≤ maxPayload := by
      rw [sendsData_length]
      exact Nat.succ_le_succ hlen
    have hport : (sendsData text).length ≤ maxArg := hfits.trans (by decide)
    refine ⟨hline.trans (asmEvents_send cmd hport).symm, ⟨0#32, hline⟩, fun s baud hrun => ?_⟩
    obtain ⟨hf, hm⟩ := hrun
    refine ⟨frameLength (sendsData text), by rw [frameLength_toNat hfits, sendsData_length], ?_⟩
    have hstep : ctrlStep (encode (.send cmd)) baud (sendsData text) s = _ :=
      (ctrlStep_of_legal hport (decode_encode _)).trans (exec_send_ready cmd hf hm hfits)
    rw [sendFrame, State.present_argBytes, sendPayload_sendsData] at hstep
    exact hstep
  case noLine =>
    refine asmEvents_sends_eq_none cmd fun hwf => ?_
    obtain ⟨hlen, hnull⟩ := (textWellFormed_iff text).mp hwf
    obtain hlong | hmem := hbad
    · exact absurd hlen (Nat.not_le.mpr hlong)
    · exact hnull hmem

end Sys2Proof.Machine
end

section
/-! PROOFS. PARSE's two guards (41_codec.md R161, R162), and that an INCOMPLETE result writes nothing (R172). -/

namespace Sys2Proof.Machine

/-- PARSE below two bytes (R161). -/
theorem parseFrame_short {s : State} (h : s.count < 2) : parseFrame s = some (.incomplete, s) := by
  simp [parseFrame, h]

/-- A frame that is consumed is OK or BAD (R166, R167). -/
theorem consumeFrame_ne_incomplete {s t : State} {p : Packet} (h : consumeFrame s = some (p, t)) :
    p ≠ .incomplete := by
  obtain ⟨_, _, _, _, _, _, _, -, -, -, -, rfl⟩ := consumeFrame_cases h
  split <;> nofun

/-- Under the invariant the length byte that PARSE looks at has been written, so reading it takes no draw (R30, R162). -/
theorem State.Inv.readCell_lengthByte {s t : State} {b : Byte} (h : s.Inv) (hc : 2 ≤ s.count)
    (hr : readCell s (peekIndex s 1#8) = some (b, t)) : t = s := by
  have hset : (s.q.read (peekIndex s 1#8)).isSome = true := h.queue_set 1 hc
  obtain ⟨-, ⟨-, rfl⟩ | ⟨hunset, -, -⟩⟩ := readCell_cases hr
  · rfl
  · rw [hunset] at hset
    cases hset

/-- INCOMPLETE writes no state (R172). -/
theorem State.Inv.parseFrame_incomplete_eq {s t : State} (h : s.Inv) (hp : parseFrame s = some (.incomplete, t)) :
    t = s := by
  obtain ⟨-, -, rfl⟩ | ⟨len, u, hc, hr, ⟨-, -, rfl⟩ | ⟨-, hframe⟩⟩ := parseFrame_cases hp
  · rfl
  · exact h.readCell_lengthByte hc hr
  · exact absurd rfl (consumeFrame_ne_incomplete hframe)

/-- PARSE delivers INCOMPLETE only as its own effect: a refusal or a fault is another record (R36). -/
theorem exec_parse_incomplete {s t : State} (h : exec .parse s = .next t)
    (hres : t.results = s.results ++ [.packet .incomplete]) :
    ∃ u, parseFrame s = some (.incomplete, u) ∧ t = u.deliver (.packet .incomplete) := by
  obtain ⟨-, rfl⟩ | ⟨code, -, rfl⟩ | ⟨-, p, u, hp, rfl⟩ := exec_cases h
  · simp at hres
  · simp at hres
  · obtain rfl : p = .incomplete := by simpa [(parseFrame_poppedFrom hp).results_eq] using hres
    exact ⟨u, hp, rfl⟩

/-- Settles O28: each guard stops PARSE before it writes, and the common faults stop it elsewhere. -/
theorem parseWaitsForTheExactLength : Obligations.ParseWaitsForTheExactLength := by
  refine fun s hf => ⟨fun t hinv h hres => ?incomplete,
    fun hm hc => exec_ready hf hm nofun nofun ⟨.incomplete, s, parseFrame_short hc, rfl⟩,
    fun len hm _ hcap hlen hne =>
      exec_ready hf hm nofun nofun ⟨.incomplete, s, parseFrame_incomplete hcap hlen hne, rfl⟩,
    fun hm => exec_notReady hf hm nofun nofun, fun hm => exec_tornDown hf hm nofun⟩
  case incomplete =>
    obtain ⟨u, hp, rfl⟩ := exec_parse_incomplete h hres
    rw [hinv.parseFrame_incomplete_eq hp]
    rfl

end Sys2Proof.Machine
end

section
/-! PROOFS. The exceptions (60_exceptions.md R201 to R208): which fault a CTRL step raises, how it raises one, and that
a frozen block admits STAT alone and keeps its fault until reset. -/

namespace Sys2Proof.Machine

/-! ## Raising a fault -/

/-- R201's table: what makes the word's CTRL step raise a code, in a block that is not frozen. -/
def FaultCause (cw : Word) (s : State) : FaultCode → Prop
  | .noFault => False
  | .illegalOp => ∃ e, decode cw = .error e
  | .notReady => s.mode = .uninit ∧ ∃ i, decode cw = .ok i ∧ i ≠ .init ∧ i ≠ .stat
  | .tornDown => s.mode = .tornDown ∧ ∃ i, decode cw = .ok i ∧ i ≠ .stat
  | .reinit => s.mode = .ready ∧ decode cw = .ok .init
  | .argLength => s.mode = .ready ∧ maxPayload < s.argBytes.length ∧ ∃ cmd, decode cw = .ok (.send cmd)

theorem admission_raise_of_faultCause {cw : Word} {i : Instr} {s : State} (hd : decode cw = .ok i)
    (hs : s.fault = .noFault) : ∀ {code : FaultCode}, FaultCause cw s code → admission i s = .raise code
  | .illegalOp, ⟨_, he⟩ => nomatch hd.symm.trans he
  | .notReady, ⟨hm, _, hj, hinit, hstat⟩ => Except.ok.inj (hj.symm.trans hd) ▸ admission_notReady hs hm hinit hstat
  | .tornDown, ⟨hm, _, hj, hstat⟩ => Except.ok.inj (hj.symm.trans hd) ▸ admission_tornDown hs hm hstat
  | .reinit, ⟨hm, hj⟩ => Except.ok.inj (hj.symm.trans hd) ▸ admission_reinit hs hm
  | .argLength, ⟨hm, hl, _, hj⟩ => Except.ok.inj (hj.symm.trans hd) ▸ admission_argLength hs hm hl

theorem eq_illegalOp_of_faultCause {cw : Word} {s : State} {e : IllegalWord} (hd : decode cw = .error e) :
    ∀ {code : FaultCode}, FaultCause cw s code → code = .illegalOp
  | .illegalOp, _ => rfl
  | .notReady, ⟨_, _, hj, _⟩ => nomatch hd.symm.trans hj
  | .tornDown, ⟨_, _, hj, _⟩ => nomatch hd.symm.trans hj
  | .reinit, ⟨_, hj⟩ => nomatch hd.symm.trans hj
  | .argLength, ⟨_, _, _, hj⟩ => nomatch hd.symm.trans hj

/-- The checks in each mode: a code is raised only where its cause is present. -/
theorem faultCause_of_admission_raise {cw : Word} {i : Instr} {s : State} {code : FaultCode}
    (hd : decode cw = .ok i) (h : admission i s = .raise code) : FaultCause cw s code := by
  have hs : s.fault = .noFault := (admission_raise_cases h).1
  have hstat : i ≠ .stat := by
    rintro rfl
    cases (admission_stat s).symm.trans h
  cases hm : s.mode with
  | uninit =>
    have hinit : i ≠ .init := by
      rintro rfl
      cases (admission_init hs hm).symm.trans h
    cases (admission_notReady hs hm hinit hstat).symm.trans h
    exact ⟨hm, i, hd, hinit, hstat⟩
  | tornDown =>
    cases (admission_tornDown hs hm hstat).symm.trans h
    exact ⟨hm, i, hd, hstat⟩
  | ready =>
    by_cases hinit : i = .init
    · subst hinit
      cases (admission_reinit hs hm).symm.trans h
      exact ⟨hm, hd⟩
    · obtain ⟨cmd, rfl, hl⟩ : ∃ cmd, i = .send cmd ∧ maxPayload < s.argBytes.length := by
        by_contra hfits
        push Not at hfits
        cases (admission_ready hs hm hinit hfits).symm.trans h
      cases (admission_argLength hs hm hl).symm.trans h
      exact ⟨hm, hl, cmd, hd⟩

/-- A cause of a fault decides the step: the operands are presented and the fault is raised. -/
theorem ctrlStep_of_faultCause {cw : Word} {baud : Baud} {bytes : List Byte} {s : State} {code : FaultCode}
    (hb : bytes.length ≤ maxArg) (hs : s.fault = .noFault) (hc : FaultCause cw (s.present baud bytes) code) :
    ctrlStep cw baud bytes s = .next ((s.present baud bytes).raise code) := by
  rw [← State.present_fault s baud bytes] at hs
  cases hd : decode cw with
  | ok i => rw [ctrlStep_of_legal hb hd, exec_raise (admission_raise_of_faultCause hd hs hc)]
  | error e => rw [ctrlStep_of_illegal hb hd, illegalWord_of_noFault hs, eq_illegalOp_of_faultCause hd hc]

/-- A CTRL step that freezes the block had a cause to, and does nothing but raise that cause's code. -/
theorem ctrlStep_raises {cw : Word} {baud : Baud} {bytes : List Byte} {s t : State}
    (h : ctrlStep cw baud bytes s = .next t) (hs : s.fault = .noFault) (ht : t.fault ≠ .noFault) :
    FaultCause cw (s.present baud bytes) t.fault ∧ t = (s.present baud bytes).raise t.fault := by
  rw [← State.present_fault s baud bytes] at hs
  obtain ⟨-, ⟨i, hd, he⟩ | ⟨e, hd, rfl⟩⟩ := ctrlStep_cases h
  · obtain ⟨ha, -⟩ | ⟨code, ha, rfl⟩ | ⟨-, heffect⟩ := exec_cases he
    · exact absurd hs (admission_refuse_frozen ha)
    · exact ⟨faultCause_of_admission_raise hd ha, rfl⟩
    · exact absurd (heffect.fault_eq.trans hs) ht
  · rw [illegalWord_of_noFault hs]
    exact ⟨⟨e, hd⟩, rfl⟩

theorem ctrlStep_fault_iff {cw : Word} {baud : Baud} {bytes : List Byte} {s t : State} {code : FaultCode}
    (h : ctrlStep cw baud bytes s = .next t) (hs : s.fault = .noFault) (hcode : code ≠ .noFault) :
    t.fault = code ↔ FaultCause cw (s.present baud bytes) code := by
  constructor
  · rintro rfl
    exact (ctrlStep_raises h hs hcode).1
  · intro hc
    cases (ctrlStep_of_faultCause (ctrlStep_cases h).1 hs hc).symm.trans h
    exact State.raise_fault _ code

/-- Settles O40: a step that freezes the block presents the operands and raises the code. -/
theorem faultsArePrecise : Obligations.FaultsArePrecise :=
  fun _ _ _ _ _ h hs ht => (ctrlStep_raises h hs ht).2

/-- Settles O42: each code is raised exactly for its cause. -/
theorem faultCodesHaveTheirCauses : Obligations.FaultCodesHaveTheirCauses := by
  intro cw baud bytes s t hs h
  have hcause : ∀ code, code ≠ .noFault → (t.fault = code ↔ FaultCause cw (s.present baud bytes) code) :=
    fun _ => ctrlStep_fault_iff h hs
  exact ⟨hcause .illegalOp nofun, hcause .notReady nofun, hcause .tornDown nofun, hcause .reinit nofun,
    hcause .argLength nofun, rfl, rfl, rfl, rfl, rfl, rfl⟩

/-! ## While frozen -/

theorem ctrlStep_stat {cw : Word} {baud : Baud} {bytes : List Byte} (s : State) (hb : bytes.length ≤ maxArg)
    (hd : decode cw = .ok .stat) :
    ctrlStep cw baud bytes s = .next ((s.present baud bytes).deliver (.status (statusRecord s))) :=
  (ctrlStep_of_legal hb hd).trans (exec_stat (s.present baud bytes))

/-- While frozen every word but STAT's is refused, legal or not. -/
theorem ctrlStep_frozen {cw : Word} {baud : Baud} {bytes : List Byte} {s : State} (hb : bytes.length ≤ maxArg)
    (hf : s.fault ≠ .noFault) (hstat : decode cw ≠ .ok .stat) :
    ctrlStep cw baud bytes s = .next (s.present baud bytes).refuse := by
  rw [← State.present_fault s baud bytes] at hf
  cases hd : decode cw with
  | ok i =>
    have hi : i ≠ .stat := fun hi => hstat (hi ▸ hd)
    rw [ctrlStep_of_legal hb hd, exec_refuse (admission_frozen hf hi)]
  | error e => rw [ctrlStep_of_illegal hb hd, illegalWord_of_fault hf]

theorem lineStep_frozen (r : RxRecord) {s : State} (hf : s.fault ≠ .noFault) : lineStep r s = s :=
  lineStep_of_not_listening r fun hl => hf ((lineListening_iff s).mp hl).1

theorem drainEnabled_frozen {s : State} (hf : s.fault ≠ .noFault) : drainEnabled s = false :=
  Bool.eq_false_iff.mpr fun he => hf ((drainEnabled_iff s).mp he).1

/-- Settles O41: CTRL by its word, LINE and DRAIN by their guards, and the reset value of the fault. -/
theorem frozenBlockRefusesAllButStat : Obligations.FrozenBlockRefusesAllButStat :=
  fun s hf =>
    ⟨fun _ _ _ hb hstat => ctrlStep_frozen hb hf hstat,
      fun _ _ hb => ctrlStep_stat s hb (decode_encode .stat),
      fun r => congrArg Host.Outcome.next (lineStep_frozen r hf), drainEnabled_frozen hf,
      s.physicalReset, rfl, s.physicalReset_fault⟩

theorem agentStep_keeps_fault {e : Event} {s t : State} (h : agentStep e s = .next t) (he : e ≠ .reset)
    (hf : s.fault ≠ .noFault) : t.fault = s.fault := by
  obtain ⟨r, -, rfl⟩ | ⟨now, -, hd⟩ | ⟨cw, baud, bytes, -, hc⟩ | ⟨hreset, -⟩ := agentStep_cases h
  · rw [lineStep_frozen r hf]
  · cases (drainStep_disabled (drainEnabled_frozen hf)).symm.trans hd
    rfl
  · have hb : bytes.length ≤ maxArg := (ctrlStep_cases hc).1
    by_cases hstat : decode cw = .ok .stat
    · cases (ctrlStep_stat s hb hstat).symm.trans hc
      rfl
    · cases (ctrlStep_frozen hb hf hstat).symm.trans hc
      rfl
  · exact absurd hreset he

/-- Settles O43: along the run the fault stays the first one, so the block stays frozen. -/
theorem firstFaultIsKeptUntilReset : Obligations.FirstFaultIsKeptUntilReset := by
  refine fun es s t hf hes h => runEvents_induction (fun u => u.fault = s.fault) ?_ rfl h
  intro e hmem u v hu hstep
  have hreset : e ≠ .reset := ne_of_mem_of_not_mem hmem hes
  exact (agentStep_keeps_fault hstep hreset (hu ▸ hf)).trans hu

end Sys2Proof.Machine
end

section
/-! PROOFS. Reset and what no other event undoes (70_reset_and_hazards.md R230, 10_state.md R231). -/

namespace Sys2Proof.Machine

/-- The two differ in the parameters, the ports, the results, the draws and the schedule only (log entry 14). -/
theorem State.physicalReset_sameBlock_reset (s : State) : s.physicalReset.sameBlock State.reset :=
  ⟨rfl, rfl, rfl, rfl, rfl, rfl, rfl, rfl, rfl, rfl, rfl, rfl, rfl, rfl, rfl⟩

/-- Settles O11: reset by the block it leaves, every other event by the two frame lemmas of its step. -/
theorem onlyResetLeavesTornDownOrFrozen : Obligations.OnlyResetLeavesTornDownOrFrozen :=
  ⟨fun s => ⟨s.physicalReset, rfl, s.physicalReset_sameBlock_reset⟩,
    fun _ _ _ h he => ⟨agentStep_keeps_tornDown h he, agentStep_keeps_fault h he⟩⟩

/-- Settles O9: each field as the table gives it; the storage lists no cell, so every cell reads unset. -/
theorem resetStateHasTheTableValues : Obligations.ResetStateHasTheTableValues :=
  ⟨rfl, rfl, rfl, rfl, rfl, rfl, rfl, rfl, rfl, Memory.read_nil, rfl, rfl, rfl, rfl, rfl⟩

end Sys2Proof.Machine
end

section
/-! PROOFS. Encoder and decoder are inverse to each other (30_encoding.md R80 to R84). -/

namespace Sys2Proof

/-- Settles O1: the fields of an encoded operation are the ones the decoder looks for. -/
theorem decodeInvertsEncode : Obligations.DecodeInvertsEncode := decode_encode

/-- Settles O2: a word that decodes has the fields of its operation's encoding, and no other bits. -/
theorem encodeInvertsDecode : Obligations.EncodeInvertsDecode := fun _ _ h => (eq_encode_of_decode h).symm

/-- Settles O4: nine of the words are encodings, the two illegal ones are computed. -/
theorem sampleWordsDecode : Obligations.SampleWordsDecode :=
  ⟨decode_encode .init, decode_encode .tdown, decode_encode .pop, decode_encode (.peek 0xFF#8), decode_encode .flush,
    decode_encode .stat, decode_encode .sendb, decode_encode .parse, decode_encode (.send 0x42#8), by decide, by decide⟩

end Sys2Proof
end

section
/-! PROOFS. The step by the head of the schedule (log entry 1). -/

namespace Sys2Proof.Machine

theorem step_of_nil {s : State} (h : s.schedule = []) : step s = .next s := by simp [step, h]

theorem step_of_cons {s : State} {e : Event} {rest : List Event} (h : s.schedule = e :: rest) :
    step s = agentStep e { s with schedule := rest } := by simp [step, h]

/-- Settles O6: the two cases of the schedule. -/
theorem stepTakesTheScheduledEvent : Obligations.StepTakesTheScheduledEvent :=
  fun _ => ⟨step_of_nil, fun _ _ => step_of_cons⟩

/-- Settles O7: the head's step is CTRL's, and CTRL runs a legal word. -/
theorem stepRunsTheDecodedInstruction : Obligations.StepRunsTheDecodedInstruction :=
  fun _ _ _ _ _ _ hs hb hd => (step_of_cons hs).trans (ctrlStep_of_legal hb hd)

end Sys2Proof.Machine
end

section
/-! PROOFS. PARSE under the invariant (41_codec.md R161 to R170): which packet it answers is decided by the buffered
bytes alone, and it leaves the state as it is or consumes all of them. -/

namespace Sys2Proof.Machine

/-- The buffered bytes are a whole frame: the byte at offset 1 is their number (R162). -/
def IsFrame (bs : List Byte) : Prop := bs[1]?.map BitVec.toNat = some bs.length

theorem isFrame_cons_cons (cmd len : Byte) (payload : List Byte) :
    IsFrame (cmd :: len :: payload) ↔ len.toNat = payload.length + 2 := by
  simp [IsFrame]

/-- A frame has a command and a length byte. -/
theorem IsFrame.exists_eq {bs : List Byte} (h : IsFrame bs) :
    ∃ cmd len payload, bs = cmd :: len :: payload ∧ len.toNat = payload.length + 2 := by
  match bs with
  | [] | [_] => simp [IsFrame] at h
  | cmd :: len :: payload => exact ⟨cmd, len, payload, rfl, (isFrame_cons_cons cmd len payload).mp h⟩

/-- The packet that PARSE answers for a frame: OK exactly where its bytes XOR to zero (R169). -/
def framePacket (cmd len : Byte) (payload : List Byte) : Packet :=
  if xorAll (cmd :: len :: payload) = 0x00#8 then .ok ⟨cmd, len - 2#8, payload, 0x00#8⟩
  else .bad ⟨cmd, len - 2#8, payload, 0x00#8⟩

/-- A frame is consumed whole (R168, R169). -/
theorem State.Inv.parseFrame_of_frame {s : State} {cmd len : Byte} {payload : List Byte} (h : s.Inv)
    (hq : s.queue = (cmd :: len :: payload).map some) (hlen : len.toNat = payload.length + 2) :
    parseFrame s = some (framePacket cmd len payload, { s with rd := s.wr, count := 0 }) := by
  have hc : payload.length + 2 = s.count := (State.count_of_queue hq).symm
  rw [parseFrame_of_queue h.rd_lt hq hlen, consumeFrame_of_queue h.rd_lt hq hlen, hc, h.consume_all]
  simp only [validate_zero_fill, framePacket]

/-- Bytes that are no frame stay where they are (R161, R162, R172). -/
theorem State.Inv.parseFrame_of_not_frame {s : State} {bs : List Byte} (h : s.Inv) (hq : s.queue = bs.map some)
    (hbs : ¬ IsFrame bs) : parseFrame s = some (.incomplete, s) := by
  have hc := State.count_of_queue hq
  match bs with
  | [] => exact parseFrame_short (by simp [hc])
  | [_] => exact parseFrame_short (by simp [hc])
  | cmd :: len :: payload =>
    have hlen : s.cellAhead 1 = some len := State.cellAhead_of_queue hq (i := 1) (by simp)
    refine parseFrame_incomplete h.capacity_pos hlen fun heq => hbs ?_
    rw [isFrame_cons_cons, ← heq, hc, List.length_cons, List.length_cons]

/-- All that PARSE can do to a state that meets the invariant. -/
theorem State.Inv.parseFrame_total {s : State} (h : s.Inv) :
    parseFrame s = some (.incomplete, s) ∨ ∃ p, parseFrame s = some (p, { s with rd := s.wr, count := 0 }) := by
  obtain ⟨bs, hq⟩ := h.queue_bytes
  by_cases hbs : IsFrame bs
  · obtain ⟨cmd, len, payload, rfl, hlen⟩ := hbs.exists_eq
    exact .inr ⟨_, h.parseFrame_of_frame hq hlen⟩
  · exact .inl (h.parseFrame_of_not_frame hq hbs)

theorem exec_parse_of_parseFrame {s t : State} {p : Packet} (hr : s.running) (h : parseFrame s = some (p, t)) :
    exec .parse s = .next (t.deliver (.packet p)) :=
  exec_ready hr.1 hr.2 nofun nofun ⟨p, t, h, rfl⟩

theorem exec_parse_of_frame {s : State} {cmd len : Byte} {payload : List Byte} (h : s.Inv) (hr : s.running)
    (hq : s.queue = (cmd :: len :: payload).map some) (hlen : len.toNat = payload.length + 2) :
    exec .parse s = .next { s with
      count := 0, rd := s.wr, results := s.results ++ [.packet (framePacket cmd len payload)] } :=
  exec_parse_of_parseFrame hr (h.parseFrame_of_frame hq hlen)

theorem exec_parse_of_not_frame {s : State} {bs : List Byte} (h : s.Inv) (hr : s.running)
    (hq : s.queue = bs.map some) (hbs : ¬ IsFrame bs) :
    exec .parse s = .next { s with results := s.results ++ [.packet .incomplete] } :=
  exec_parse_of_parseFrame hr (h.parseFrame_of_not_frame hq hbs)

/-- The payload length does not wrap for a frame, whose length byte is at least 2 (R164). -/
theorem ofNat_toNat_sub_two {len : Byte} (h : 2 ≤ len.toNat) : BitVec.ofNat 8 (len.toNat - 2) = len - 2#8 := by
  bv_omega

/-- Settles O29: the two cases of PARSE under the invariant. -/
theorem parseConsumesExactlyTheDeclaredFrame : Obligations.ParseConsumesExactlyTheDeclaredFrame := by
  refine fun s bs h hr hq => ⟨fun cmd len payload hbs hlen => ?frame, fun hno => ?noFrame⟩
  case frame =>
    subst hbs
    have hlen : len.toNat = payload.length + 2 := hlen
    rw [exec_parse_of_frame h hr hq hlen, ofNat_toNat_sub_two (by omega)]
    rfl
  case noFrame =>
    refine exec_parse_of_not_frame h hr hq fun hbs => ?_
    obtain ⟨cmd, len, payload, rfl, hlen⟩ := hbs.exists_eq
    exact hno cmd len payload rfl hlen

/-! ## The frames of R186 -/

/-- A check byte that is the XOR of the bytes before it makes the XOR of all zero (R180, R186). -/
theorem xorAll_append_xorAll (bs : List Byte) : xorAll (bs ++ [xorAll bs]) = 0x00#8 := by simp

theorem xorAll_checked (cmd len : Byte) (p : List Byte) :
    xorAll (cmd :: len :: (p ++ [cmd ^^^ len ^^^ xorAll p])) = 0x00#8 := by
  have hchk : cmd ^^^ len ^^^ xorAll p = xorAll (cmd :: len :: p) := by simp [BitVec.xor_assoc]
  exact hchk ▸ xorAll_append_xorAll (cmd :: len :: p)

theorem xorAll_sendFrame (cmd : Byte) (d : List Byte) : xorAll (sendFrame cmd d) = 0x00#8 :=
  xorAll_checked cmd (frameLength (sendPayload d)) (sendPayload d)

/-- What is left of a zero XOR without its last byte is that byte. -/
theorem xorAll_of_append_eq_zero {front : List Byte} {chk : Byte} (h : xorAll (front ++ [chk]) = 0x00#8) :
    xorAll front = chk := by
  simpa using h

theorem framePacket_tag (cmd len : Byte) (payload : List Byte) :
    (framePacket cmd len payload).tag = if xorAll (cmd :: len :: payload) = 0x00#8 then .ok else .bad := by
  unfold framePacket
  split <;> rfl

/-- Settles O30: `L` counts the host's check byte, so its frame is one; SEND's `L` does not, so SEND's frame is one only
without its last byte. -/
theorem frameRoundTrips : Obligations.FrameRoundTrips := by
  refine ⟨fun s cmd len x q h hr hq hlen hx hqueue => ?host, fun s cmd d h hr hd hqueue => ?whole,
    fun s cmd chk d front h hr hd hfront hqueue => ?cut⟩
  case host =>
    have hframe : len.toNat = (q ++ [x]).length + 2 := by
      rw [hlen, BitVec.toNat_ofNat, List.length_append, List.length_singleton]
      omega
    have hok : framePacket cmd len (q ++ [x]) = .ok ⟨cmd, len - 2#8, q ++ [x], 0x00#8⟩ :=
      if_pos (hx ▸ xorAll_checked cmd len q)
    rw [← hok]
    exact exec_parse_of_frame h hr hqueue hframe
  case whole =>
    refine exec_parse_of_not_frame h hr hqueue fun hbs => ?_
    have hbs : (frameLength (sendPayload d)).toNat = (sendFrame cmd d).length := by
      simpa [IsFrame, sendFrame_lengthByte] using hbs
    rw [frameLength_toNat (sendPayload_length_le hd), sendFrame_length] at hbs
    omega
  case cut =>
    obtain rfl : front = cmd :: frameLength (sendPayload d) :: sendPayload d :=
      (List.append_inj' hfront rfl).1.symm
    have hxor : xorAll (cmd :: frameLength (sendPayload d) :: sendPayload d) = chk :=
      xorAll_of_append_eq_zero (hfront ▸ xorAll_sendFrame cmd d)
    refine ⟨_, _, exec_parse_of_frame h hr hqueue (frameLength_toNat (sendPayload_length_le hd)), rfl, rfl, ?_⟩
    rw [framePacket_tag, hxor]

end Sys2Proof.Machine
end

section
/-! PROOFS. The frames: what an operation, LINE and DRAIN leave unchanged, and who owns the queue's fields
(20_memory.md R67). -/

namespace Sys2Proof.Machine

/-! ## The operations -/

/-- What the operation `i` leaves unchanged between `s` and `t`. A clause is proved by `rfl` where none is given. -/
structure ExecFrame (i : Instr) (s t : State) : Prop where
  q : t.q = s.q := by rfl
  hwRx : t.hwRx = s.hwRx := by rfl
  oerr : t.oerr = s.oerr := by rfl
  params : t.params = s.params := by rfl
  argBaud : t.argBaud = s.argBaud := by rfl
  argBytes : t.argBytes = s.argBytes := by rfl
  schedule : t.schedule = s.schedule := by rfl
  device : i ≠ .init → i ≠ .tdown → t.device = s.device := by exact fun _ _ => rfl
  lastRxMs : i ≠ .init → t.lastRxMs = s.lastRxMs := by exact fun _ => rfl
  wr : i ≠ .init → i ≠ .flush → t.wr = s.wr := by exact fun _ _ => rfl
  rd_count : i ≠ .init → i ≠ .flush → i ≠ .pop → i ≠ .parse → t.rd = s.rd ∧ t.count = s.count := by
    exact fun _ _ _ _ => ⟨rfl, rfl⟩
  txOut : i ≠ .sendb → (∀ cmd, i ≠ .send cmd) → t.txOut = s.txOut := by exact fun _ _ => rfl
  draws : i ≠ .pop → i ≠ .parse → (∀ off, i ≠ .peek off) → t.draws = s.draws := by exact fun _ _ _ => rfl
  fault : i = .stat → t.fault = s.fault := by exact fun _ => rfl

theorem Effect.frame {i : Instr} {s t : State} (h : Effect i s t) : ExecFrame i s t := by
  cases i with
  | init =>
    cases h
    exact { device := nofun, lastRxMs := nofun, wr := nofun, rd_count := nofun }
  | tdown =>
    cases h
    exact { device := nofun }
  | pop =>
    obtain ⟨b, e, u, hp, rfl⟩ := h
    obtain ⟨rd, count, draws, rfl⟩ := popByte_poppedFrom hp
    exact { rd_count := nofun, draws := nofun }
  | peek off =>
    obtain ⟨b, u, hr, rfl⟩ := h
    obtain ⟨-, ⟨-, rfl⟩ | ⟨-, -, rfl⟩⟩ := readCell_cases hr
    · exact {}
    · exact { draws := fun _ _ hoff => absurd rfl (hoff off) }
  | flush =>
    cases h
    exact { wr := nofun, rd_count := nofun }
  | stat =>
    cases h
    exact {}
  | sendb =>
    cases h
    exact { txOut := nofun }
  | parse =>
    obtain ⟨p, u, hp, rfl⟩ := h
    obtain ⟨rd, count, draws, rfl⟩ := parseFrame_poppedFrom hp
    exact { rd_count := nofun, draws := nofun }
  | send cmd =>
    cases h
    exact { txOut := fun _ hcmd => absurd rfl (hcmd cmd) }

theorem exec_frame {i : Instr} {s t : State} (h : exec i s = .next t) : ExecFrame i s t := by
  obtain ⟨-, rfl⟩ | ⟨code, ha, rfl⟩ | ⟨-, he⟩ := exec_cases h
  · exact {}
  · have hstat : i ≠ .stat := by
      rintro rfl
      cases (admission_stat s).symm.trans ha
    exact { fault := fun hi => absurd hi hstat }
  · exact he.frame

/-- Settles O51: the clauses of the frame. -/
theorem operationsLeaveTheRestUnchanged : Obligations.OperationsLeaveTheRestUnchanged := by
  intro i s t h
  have frame := exec_frame h
  exact ⟨fun a => by rw [frame.q], frame.q, frame.hwRx, frame.oerr, frame.params, frame.argBaud, frame.argBytes,
    frame.schedule, fun hi ht => State.device_eq_iff.mp (frame.device hi ht), frame.lastRxMs, frame.wr,
    frame.rd_count, frame.txOut, frame.draws, frame.fault⟩

/-! ## LINE and DRAIN -/

/-- `t` is `s` but for the peripheral and the producer's side of the queue: all that LINE and DRAIN can write. -/
def State.ReceivedFrom (s t : State) : Prop :=
  ∃ hwRx oerr q wr count time, t = { s with
    hwRx := hwRx, oerr := oerr, q := q, wr := wr, count := count, lastRxMs := time }

theorem lineStep_receivedFrom (r : RxRecord) (s : State) : s.ReceivedFrom (lineStep r s) := by
  obtain h | ⟨-, -, -, h⟩ | ⟨-, -, -, h⟩ := lineStep_cases r s <;> rw [h] <;> exact ⟨_, _, _, _, _, _, rfl⟩

theorem drainStep_receivedFrom {now : Millis} {s t : State} (h : drainStep now s = .next t) : s.ReceivedFrom t := by
  obtain ⟨-, rfl⟩ | ⟨r, rest, -, -, ⟨-, -, -, rfl⟩ | ⟨-, rfl⟩⟩ := drainStep_cases h <;>
    exact ⟨_, _, _, _, _, _, rfl⟩

/-- Settles O52: neither writes but on the receive side. -/
theorem receiveStepsLeaveTheRestUnchanged : Obligations.ReceiveStepsLeaveTheRestUnchanged := by
  intro e s t h he
  have hfrom : s.ReceivedFrom t := by
    obtain ⟨r, rfl⟩ | ⟨now, rfl⟩ := he
    · cases h
      exact lineStep_receivedFrom r s
    · exact drainStep_receivedFrom h
  obtain ⟨hwRx, oerr, q, wr, count, time, rfl⟩ := hfrom
  exact ⟨rfl, rfl, rfl, rfl, rfl, rfl, rfl, rfl, rfl, rfl, rfl, rfl, rfl, rfl, rfl⟩

/-- Settles O37: only the append changes the count, and it writes the byte at `wr`. -/
theorem drainWritesOneCell : Obligations.DrainWritesOneCell := by
  intro now s t h hcount
  obtain ⟨-, rfl⟩ | ⟨r, rest, -, hr, ⟨-, -, -, rfl⟩ | ⟨-, rfl⟩⟩ := drainStep_cases h
  · exact absurd rfl hcount
  · exact ⟨⟨r, rest, hr, Memory.read_write_same s.q s.wr r.b⟩, fun a ha => Memory.read_write_other s.q s.wr a r.b ha⟩
  · exact absurd rfl hcount

/-! ## An illegal word -/

/-- An illegal word writes at most the fault, beside the result. -/
theorem illegalWord_eq (s : State) :
    ∃ fault results, illegalWord s = { s with fault := fault, results := results } := by
  unfold illegalWord
  split <;> exact ⟨_, _, rfl⟩

/-! ## One producer, one consumer -/

theorem popByte_count_le {s t : State} {b : Byte} {e : Bool} (h : popByte s = some (b, e, t)) : t.count ≤ s.count := by
  obtain ⟨-, -, -, rfl⟩ | ⟨-, -, u, hu, rfl⟩ := popByte_cases h
  · exact le_rfl
  · obtain ⟨-, ⟨-, rfl⟩ | ⟨-, -, rfl⟩⟩ := readCell_cases hu <;> exact Nat.sub_le _ _

theorem popZero_count_le {s t : State} {b : Byte} (h : popZero s = some (b, t)) : t.count ≤ s.count := by
  obtain ⟨e, he⟩ := popZero_cases h
  exact popByte_count_le he

theorem popMany_count_le {n : Nat} {s t : State} {bs : List Byte} (h : popMany n s = some (bs, t)) :
    t.count ≤ s.count := by
  induction n generalizing s bs with
  | zero =>
    cases h
    exact le_rfl
  | succ m ih =>
    obtain ⟨h0, -⟩ | ⟨m', b, cs, u, hm, -, hb, hcs⟩ := popMany_cases h
    · cases h0
    · cases hm
      exact (ih hcs).trans (popZero_count_le hb)

theorem parseFrame_count_le {s t : State} {p : Packet} (h : parseFrame s = some (p, t)) : t.count ≤ s.count := by
  obtain ⟨-, -, rfl⟩ | ⟨len, u, -, hr, hu⟩ := parseFrame_cases h
  · exact le_rfl
  · have hread : u.count = s.count := by
      obtain ⟨-, ⟨-, rfl⟩ | ⟨-, -, rfl⟩⟩ := readCell_cases hr <;> rfl
    obtain ⟨-, -, rfl⟩ | ⟨-, hframe⟩ := hu
    · exact hread.le
    · obtain ⟨_, _, _, _, _, _, _, h1, h2, h3, h4, -⟩ := consumeFrame_cases hframe
      calc t.count ≤ _ := popZero_count_le h4
        _ ≤ _ := popMany_count_le h3
        _ ≤ _ := popZero_count_le h2
        _ ≤ u.count := popZero_count_le h1
        _ = s.count := hread

/-- What the consumer may write of the producer's fields: a lower count, and `wr` and the time as 0. -/
structure ConsumerOnly (i : Instr) (s t : State) : Prop where
  count_le : t.count ≤ s.count
  wr : t.wr = s.wr ∨ t.wr = 0
  lastRxMs : t.lastRxMs = s.lastRxMs ∨ (i = .init ∧ t.lastRxMs = 0#32)

theorem Effect.consumerOnly {i : Instr} {s t : State} (h : Effect i s t) : ConsumerOnly i s t := by
  have frame := h.frame
  cases i with
  | init =>
    cases h
    exact ⟨Nat.zero_le _, .inr rfl, .inr ⟨rfl, rfl⟩⟩
  | flush =>
    cases h
    exact ⟨Nat.zero_le _, .inr rfl, .inl rfl⟩
  | pop =>
    obtain ⟨b, e, u, hp, rfl⟩ := h
    exact ⟨show u.count ≤ s.count from popByte_count_le hp, .inl (frame.wr nofun nofun), .inl (frame.lastRxMs nofun)⟩
  | parse =>
    obtain ⟨p, u, hp, rfl⟩ := h
    exact ⟨show u.count ≤ s.count from parseFrame_count_le hp, .inl (frame.wr nofun nofun), .inl (frame.lastRxMs nofun)⟩
  | tdown | peek off | stat | sendb | send cmd =>
    exact ⟨(frame.rd_count nofun nofun nofun nofun).2.le, .inl (frame.wr nofun nofun), .inl (frame.lastRxMs nofun)⟩

theorem exec_consumerOnly {i : Instr} {s t : State} (h : exec i s = .next t) : ConsumerOnly i s t := by
  obtain ⟨-, rfl⟩ | ⟨code, -, rfl⟩ | ⟨-, he⟩ := exec_cases h
  · exact ⟨le_rfl, .inl rfl, .inl rfl⟩
  · exact ⟨le_rfl, .inl rfl, .inl rfl⟩
  · exact he.consumerOnly

/-- Settles O49: each agent by its own step. -/
theorem oneProducerOneConsumer : Obligations.OneProducerOneConsumer := by
  refine fun e s t h => ⟨?line, ?drain, ?ctrl⟩
  case line =>
    rintro r rfl
    cases h
    obtain h | ⟨-, -, -, h⟩ | ⟨-, -, -, h⟩ := lineStep_cases r s <;> rw [h] <;> exact ⟨rfl, rfl, rfl, rfl, rfl⟩
  case drain =>
    rintro now rfl
    obtain ⟨-, rfl⟩ | ⟨r, rest, -, -, ⟨-, -, -, rfl⟩ | ⟨-, rfl⟩⟩ := drainStep_cases h
    · exact ⟨rfl, .inl rfl, fun _ => ⟨rfl, rfl, rfl⟩⟩
    · exact ⟨rfl, .inr rfl, fun hc => absurd hc (Nat.succ_ne_self _)⟩
    · exact ⟨rfl, .inl rfl, fun _ => ⟨rfl, rfl, rfl⟩⟩
  case ctrl =>
    rintro cw baud bytes rfl
    obtain ⟨-, ⟨i, hd, he⟩ | ⟨_, -, rfl⟩⟩ := ctrlStep_cases h
    · obtain ⟨hcount, hwr, htime⟩ := exec_consumerOnly he
      exact ⟨(exec_frame he).q, hcount, hwr, htime.imp_right fun ⟨hi, hzero⟩ => ⟨decode_eq_init (hi ▸ hd), hzero⟩⟩
    · obtain ⟨fault, results, hill⟩ := illegalWord_eq (s.present baud bytes)
      rw [hill]
      exact ⟨rfl, le_rfl, .inl rfl, .inl rfl⟩

end Sys2Proof.Machine
end

section
/-! PROOFS. The invariant (10_state.md R25 to R33, R40, R130): reset meets it, every step keeps it, no step of a state
that meets it stops, and none but a PEEK beyond the count takes a draw. -/

namespace Sys2Proof.Machine

/-! ## Reset -/

/-- Reset needs of the state before it only what it keeps: the parameters and the operand port. -/
theorem State.physicalReset_inv {s : State} (hpos : 1 ≤ s.params.capacity) (hle : s.params.capacity ≤ 65535)
    (hdepth : 1 ≤ s.params.hwRxDepth) (hbytes : s.argBytes.length ≤ maxArg) : s.physicalReset.Inv where
  capacity_pos := hpos
  capacity_le := hle
  depth_pos := hdepth
  mem_wf := rfl
  mem_range := nofun
  rd_lt := hpos
  wr_lt := hpos
  count_le := Nat.zero_le _
  cursors := (Nat.zero_mod _).symm
  queue_set := nofun
  hw_len := Nat.zero_le _
  oerr_full := nofun
  bound_iff := by simp
  module_iff := by simp
  rx_iff := by simp
  tx_iff := by simp
  brg_off := fun _ => rfl
  fresh := fun _ => ⟨rfl, rfl, rfl, rfl, rfl, rfl, rfl, rfl⟩
  not_ready := nofun
  torn_down := nofun
  reinit := nofun
  arg_length := nofun
  arg_bytes := hbytes

/-- Settles O55: the opaque parameters have the bounds of R3 and R4 by their types. -/
theorem resetMeetsTheInvariant : Obligations.ResetMeetsTheInvariant :=
  State.physicalReset_inv (s := State.reset) (Nat.succ_le_succ (Nat.zero_le _)) Config.capacityLessOne.isLt
    (Nat.succ_le_succ (Nat.zero_le _)) (Nat.zero_le _)

/-! ## INIT, TDOWN and the faults -/

/-- Before INIT the queue is empty already (R231). -/
theorem State.Inv.emptyQueue_eq {s : State} (h : s.Inv) (hm : s.mode = .uninit) : s.emptyQueue = s := by
  obtain ⟨-, -, -, hrd, hwr, hcount, -, -⟩ := h.fresh hm
  cases s
  subst hrd hwr hcount
  rfl

theorem State.Inv.effect_init {s t : State} (h : s.Inv) (hf : s.fault = .noFault) (hm : s.mode = .uninit)
    (he : Effect .init s t) : t.Inv := by
  obtain rfl := he
  rw [h.emptyQueue_eq hm]
  exact { h with
    bound_iff := iff_of_true rfl rfl
    module_iff := iff_of_true rfl rfl
    rx_iff := iff_of_true rfl rfl
    tx_iff := iff_of_true rfl rfl
    brg_off := fun hne => absurd rfl hne
    fresh := nofun
    not_ready := fun hn => nomatch hf.symm.trans hn
    torn_down := fun ht => nomatch hf.symm.trans ht
    reinit := fun _ => rfl
    arg_length := fun _ => rfl }

theorem State.Inv.effect_tdown {s t : State} (h : s.Inv) (hf : s.fault = .noFault) (he : Effect .tdown s t) :
    t.Inv := by
  obtain rfl := he
  exact { h with
    bound_iff := iff_of_false nofun nofun
    module_iff := iff_of_false nofun nofun
    rx_iff := iff_of_false nofun nofun
    tx_iff := iff_of_false nofun nofun
    brg_off := fun _ => rfl
    fresh := nofun
    not_ready := fun hn => nomatch hf.symm.trans hn
    torn_down := fun _ => rfl
    reinit := fun hr => nomatch hf.symm.trans hr
    arg_length := fun hl => nomatch hf.symm.trans hl }

/-- A fault recorded in the mode it belongs to (R201). -/
theorem State.Inv.raise {s : State} (h : s.Inv) {code : FaultCode} (hnot : code = .notReady → s.mode = .uninit)
    (htorn : code = .tornDown → s.mode = .tornDown) (hre : code = .reinit → s.mode = .ready)
    (harg : code = .argLength → s.mode = .ready) : (s.raise code).Inv :=
  { h with not_ready := hnot, torn_down := htorn, reinit := hre, arg_length := harg }

theorem State.Inv.raise_of_admission {s : State} (h : s.Inv) {i : Instr} {code : FaultCode}
    (ha : admission i s = .raise code) : (s.raise code).Inv := by
  obtain ⟨-, ⟨rfl, hm⟩ | ⟨rfl, hm⟩ | ⟨rfl, hm⟩ | ⟨rfl, hm⟩⟩ := admission_raise_cases ha
  · exact h.raise nofun nofun (fun _ => hm) nofun
  · exact h.raise (fun _ => hm) nofun nofun nofun
  · exact h.raise nofun (fun _ => hm) nofun nofun
  · exact h.raise nofun nofun nofun (fun _ => hm)

theorem State.Inv.illegalWord {s : State} (h : s.Inv) : (Machine.illegalWord s).Inv := by
  unfold Machine.illegalWord
  split
  · exact h.deliver .refused
  · exact h.raise nofun nofun nofun nofun

/-! ## The consumer's operations -/

/-- Under the invariant the head of a queue that is not empty has been written, so POP takes no draw (R30, R117). -/
theorem State.Inv.popByte_total {s : State} (h : s.Inv) :
    (s.count = 0 ∧ popByte s = some (0x00#8, true, s)) ∨
      ∃ b, s.count ≠ 0 ∧ popByte s = some (b, false, s.consumeOne) := by
  by_cases hc : s.count = 0
  · exact .inl ⟨hc, popByte_empty hc⟩
  · have hset := h.queue_set 0 (Nat.pos_of_ne_zero hc)
    rw [State.cellAhead_zero h.rd_lt] at hset
    obtain ⟨b, hb⟩ := Option.isSome_iff_exists.mp hset
    exact .inr ⟨b, hc, popByte_of_set hc h.rd_lt hb⟩

theorem State.Inv.consumeOne {s : State} (h : s.Inv) (hm : s.mode ≠ .uninit) (hc : s.count ≠ 0) :
    s.consumeOne.Inv :=
  h.consumeMany hm (Nat.one_le_iff_ne_zero.mpr hc)

theorem State.Inv.consumeAll {s : State} (h : s.Inv) (hm : s.mode ≠ .uninit) :
    State.Inv { s with rd := s.wr, count := 0 } :=
  h.consume_all ▸ h.consumeMany hm le_rfl

theorem State.Inv.readCell {s t : State} {i : Nat} {b : Byte} (h : s.Inv) (hr : Machine.readCell s i = some (b, t)) :
    t.Inv := by
  obtain ⟨-, ⟨-, rfl⟩ | ⟨-, -, rfl⟩⟩ := readCell_cases hr
  · exact h
  · exact h.countDraw

/-! ## Every step keeps the invariant -/

/-- An admitted operation keeps the invariant. -/
theorem State.Inv.effect {s t : State} {i : Instr} (h : s.Inv) (ha : admission i s = .run) (he : Effect i s t) :
    t.Inv := by
  obtain rfl | ⟨hf, rfl, hm⟩ | ⟨hf, hi, hm, -⟩ := admission_run_cases ha
  · obtain rfl := he
    exact h.deliver _
  · exact h.effect_init hf hm he
  have hm : s.mode ≠ .uninit := by simp [hm]
  cases i with
  | init => exact absurd rfl hi
  | tdown => exact h.effect_tdown hf he
  | pop =>
    obtain ⟨b, e, u, hp, rfl⟩ := he
    obtain ⟨-, hq⟩ | ⟨b', hc, hq⟩ := h.popByte_total <;> cases hq.symm.trans hp
    · exact h.deliver _
    · exact (h.consumeOne hm hc).deliver _
  | peek off =>
    obtain ⟨b, u, hr, rfl⟩ := he
    exact (h.readCell hr).deliver _
  | flush =>
    obtain rfl := he
    exact (h.emptyQueue hm).deliver _
  | stat =>
    obtain rfl := he
    exact h.deliver _
  | parse =>
    obtain ⟨p, u, hp, rfl⟩ := he
    obtain hq | ⟨p', hq⟩ := h.parseFrame_total <;> cases hq.symm.trans hp
    · exact h.deliver _
    · exact (h.consumeAll hm).deliver _
  | sendb | send cmd =>
    obtain rfl := he
    exact (h.transmit hm _).deliver _

theorem State.Inv.exec {s t : State} {i : Instr} (h : s.Inv) (he : Machine.exec i s = .next t) : t.Inv := by
  obtain ⟨-, rfl⟩ | ⟨code, ha, rfl⟩ | ⟨ha, heffect⟩ := exec_cases he
  · exact h.deliver .refused
  · exact h.raise_of_admission ha
  · exact h.effect ha heffect

theorem State.Inv.ctrlStep {cw : Word} {baud : Baud} {bytes : List Byte} {s t : State} (h : s.Inv)
    (hc : Machine.ctrlStep cw baud bytes s = .next t) : t.Inv := by
  obtain ⟨hb, ⟨i, -, he⟩ | ⟨e, -, rfl⟩⟩ := ctrlStep_cases hc
  · exact (h.present baud hb).exec he
  · exact (h.present baud hb).illegalWord

/-- LINE writes only in READY, so it keeps what holds before INIT (R110). -/
theorem State.Inv.lineStep {s : State} (h : s.Inv) (r : RxRecord) : (Machine.lineStep r s).Inv := by
  obtain hl | ⟨hl, -, hfull, heq⟩ | ⟨hl, ho, hroom, heq⟩ := lineStep_cases r s
  · rwa [hl]
  all_goals
    obtain ⟨-, hm, -, -⟩ := (lineListening_iff s).mp hl
    have hm : s.mode ≠ .uninit := by simp [hm]
    rw [heq]
  · exact { h with oerr_full := fun _ => hfull, fresh := fun hu => absurd hu hm }
  · exact { h with
      hw_len := by
        have := h.hw_len
        simp only [List.length_append, List.length_singleton]
        omega
      oerr_full := fun ho' => nomatch ho.symm.trans ho'
      fresh := fun hu => absurd hu hm }

theorem State.Inv.drainStep {now : Millis} {s t : State} (h : s.Inv) (hd : Machine.drainStep now s = .next t) :
    t.Inv := by
  obtain ⟨-, rfl⟩ | ⟨r, rest, he, hr, hcase⟩ := drainStep_cases hd
  · exact h
  · have hm : s.mode ≠ .uninit := by simp [((drainEnabled_iff s).mp he).2.1]
    obtain ⟨hc, -, -, rfl⟩ | ⟨-, rfl⟩ := hcase
    · exact (h.takeRecord hm hr).appendByte hm hc r.b now
    · exact h.takeRecord hm hr

theorem State.Inv.agentStep {e : Event} {s t : State} (h : s.Inv) (hs : Machine.agentStep e s = .next t) : t.Inv := by
  obtain ⟨r, -, rfl⟩ | ⟨now, -, hd⟩ | ⟨cw, baud, bytes, -, hc⟩ | ⟨-, rfl⟩ := agentStep_cases hs
  · exact h.lineStep r
  · exact h.drainStep hd
  · exact h.ctrlStep hc
  · exact State.physicalReset_inv h.capacity_pos h.capacity_le h.depth_pos h.arg_bytes

/-- Settles O56: a step waits or is one agent's step, and each agent keeps the invariant. -/
theorem stepKeepsTheInvariant : Obligations.StepKeepsTheInvariant := by
  intro s t h hs
  obtain ⟨-, rfl⟩ | ⟨e, rest, -, he⟩ := step_cases hs
  · exact h
  · exact (h.withSchedule rest).agentStep he

/-- Settles O59: nothing has been received in UNINIT, and INIT empties the queue. -/
theorem initLeavesNothingReceived : Obligations.InitLeavesNothingReceived := by
  intro s h hf hm
  obtain ⟨hrx, hoerr, -⟩ := h.fresh hm
  exact ⟨_, (exec_run (admission_init hf hm)).mpr rfl, rfl, hrx, hoerr, rfl⟩

/-! ## No step stops -/

/-- Under the invariant every admitted operation has an effect. -/
theorem State.Inv.exists_effect {s : State} (h : s.Inv) (i : Instr) : ∃ t, Effect i s t := by
  cases i with
  | pop =>
    obtain ⟨-, hp⟩ | ⟨b, -, hp⟩ := h.popByte_total
    · exact ⟨_, _, _, _, hp, rfl⟩
    · exact ⟨_, _, _, _, hp, rfl⟩
  | peek off =>
    obtain ⟨b, u, hr⟩ := readCell_isSome (peekIndex_lt off h.capacity_pos)
    exact ⟨_, b, u, hr, rfl⟩
  | parse =>
    obtain hp | ⟨p, hp⟩ := h.parseFrame_total
    · exact ⟨_, _, _, hp, rfl⟩
    · exact ⟨_, _, _, hp, rfl⟩
  | init | tdown | flush | stat | sendb | send cmd => exact ⟨_, rfl⟩

theorem State.Inv.exec_isNext {s : State} (h : s.Inv) (i : Instr) : ∃ t, Machine.exec i s = .next t := by
  cases ha : admission i s with
  | refuse => exact ⟨_, exec_refuse ha⟩
  | raise code => exact ⟨_, exec_raise ha⟩
  | run =>
    obtain ⟨t, ht⟩ := h.exists_effect i
    exact ⟨t, (exec_run ha).mpr ht⟩

theorem State.Inv.drainStep_isNext {s : State} (h : s.Inv) (now : Millis) :
    ∃ t, Machine.drainStep now s = .next t := by
  cases he : drainEnabled s with
  | false => exact ⟨s, drainStep_disabled he⟩
  | true =>
    obtain ⟨r, rest, hr⟩ := List.exists_cons_of_ne_nil ((drainEnabled_iff_ne_nil s).mp he).2.2
    by_cases hkeep : s.count < s.params.capacity ∧ recordClean r = true
    · exact ⟨_, drainStep_append he hr hkeep.1 hkeep.2 h.wr_lt⟩
    · exact ⟨_, drainStep_drop he hr hkeep⟩

theorem State.Inv.agentStep_isNext {s : State} (h : s.Inv) {e : Event} (he : e.wellFormed = true) :
    ∃ t, Machine.agentStep e s = .next t := by
  cases e with
  | line r => exact ⟨_, rfl⟩
  | drain now => exact h.drainStep_isNext now
  | reset => exact ⟨_, rfl⟩
  | ctrl cw baud bytes =>
    have hb : bytes.length ≤ maxArg := of_decide_eq_true he
    cases hd : decode cw with
    | ok i =>
      obtain ⟨t, ht⟩ := (h.present baud hb).exec_isNext i
      exact ⟨t, (ctrlStep_of_legal hb hd).trans ht⟩
    | error _ => exact ⟨_, ctrlStep_of_illegal hb hd⟩

/-- No agent writes the schedule. -/
theorem agentStep_schedule {e : Event} {s t : State} (h : agentStep e s = .next t) : t.schedule = s.schedule := by
  obtain ⟨r, -, rfl⟩ | ⟨now, -, hd⟩ | ⟨cw, baud, bytes, -, hc⟩ | ⟨-, rfl⟩ := agentStep_cases h
  · obtain ⟨_, _, _, _, _, _, heq⟩ := lineStep_receivedFrom r s
    rw [heq]
  · obtain ⟨_, _, _, _, _, _, rfl⟩ := drainStep_receivedFrom hd
    rfl
  · obtain ⟨-, ⟨i, -, he⟩ | ⟨_, -, rfl⟩⟩ := ctrlStep_cases hc
    · exact (exec_frame he).schedule
    · obtain ⟨fault, results, hill⟩ := illegalWord_eq (s.present baud bytes)
      rw [hill]
      rfl
  · rfl

/-- Settles O57: each agent answers, and what is left of the schedule is as the ports can carry it. -/
theorem noStepStopsUnderTheInvariant : Obligations.NoStepStopsUnderTheInvariant := by
  intro s h hok
  cases hs : s.schedule with
  | nil => exact ⟨s, step_of_nil hs, hok⟩
  | cons e rest =>
    unfold State.scheduleOk at hok
    rw [hs] at hok
    obtain ⟨hhead, hrest⟩ := List.forall_mem_cons.mp hok
    obtain ⟨t, ht⟩ := (h.withSchedule rest).agentStep_isNext hhead
    refine ⟨t, (step_of_cons hs).trans ht, ?_⟩
    rw [State.scheduleOk, agentStep_schedule ht]
    exact hrest

/-! ## Draws -/

/-- An operation that takes a draw under the invariant is a PEEK at an offset the queue does not reach. -/
theorem State.Inv.exec_draws {s t : State} {i : Instr} (h : s.Inv) (he : Machine.exec i s = .next t)
    (hne : t.draws ≠ s.draws) : ∃ off, i = .peek off ∧ s.count ≤ off.toNat := by
  obtain ⟨-, rfl⟩ | ⟨code, -, rfl⟩ | ⟨-, heffect⟩ := exec_cases he
  · exact absurd rfl hne
  · exact absurd rfl hne
  cases i with
  | pop =>
    obtain ⟨b, e, u, hp, rfl⟩ := heffect
    obtain ⟨-, hq⟩ | ⟨b', -, hq⟩ := h.popByte_total <;> cases hq.symm.trans hp <;> exact absurd rfl hne
  | parse =>
    obtain ⟨p, u, hp, rfl⟩ := heffect
    obtain hq | ⟨p', hq⟩ := h.parseFrame_total <;> cases hq.symm.trans hp <;> exact absurd rfl hne
  | peek off =>
    obtain ⟨b, u, hr, rfl⟩ := heffect
    obtain ⟨-, ⟨-, rfl⟩ | ⟨hunset, -, -⟩⟩ := readCell_cases hr
    · exact absurd rfl hne
    · refine ⟨off, rfl, Nat.not_lt.mp fun hlt => ?_⟩
      have hset : (s.q.read (peekIndex s off)).isSome = true := h.queue_set off.toNat hlt
      rw [hunset] at hset
      cases hset
  | init | tdown | flush | stat | sendb | send cmd => exact absurd (heffect.frame.draws nofun nofun nofun) hne

/-- Settles O19: LINE, DRAIN and reset draw nothing, an illegal word neither; the length byte is in the queue. -/
theorem onlyPeekBeyondTheCountDraws : Obligations.OnlyPeekBeyondTheCountDraws := by
  refine ⟨fun e s t h hs hne => ?_, fun s h hc => Option.isSome_iff_exists.mp (h.queue_set 1 hc)⟩
  obtain ⟨r, -, rfl⟩ | ⟨now, -, hd⟩ | ⟨cw, baud, bytes, rfl, hctrl⟩ | ⟨-, rfl⟩ := agentStep_cases hs
  · obtain ⟨_, _, _, _, _, _, heq⟩ := lineStep_receivedFrom r s
    exact absurd (congrArg State.draws heq) hne
  · obtain ⟨_, _, _, _, _, _, rfl⟩ := drainStep_receivedFrom hd
    exact absurd rfl hne
  · obtain ⟨hb, ⟨i, hd, he⟩ | ⟨_, -, rfl⟩⟩ := ctrlStep_cases hctrl
    · obtain ⟨off, rfl, hoff⟩ := (h.present baud hb).exec_draws he hne
      exact ⟨off, baud, bytes, by rw [eq_encode_of_decode hd], hoff⟩
    · obtain ⟨fault, results, hill⟩ := illegalWord_eq (s.present baud bytes)
      exact absurd (congrArg State.draws hill) hne
  · exact absurd rfl hne

end Sys2Proof.Machine
end

section
/-! PROOFS. The model's own conventions (log entries 5, 7, 8, 9, 14, 15): what a step does where the spec leaves it
open. -/

namespace Sys2Proof.Machine

/-! ## Reset, DRAIN without a step, and STAT -/

/-- Settles O10: the reset writes the block's fields and no other. -/
theorem resetKeepsTheEnvironment : Obligations.ResetKeepsTheEnvironment :=
  fun s => ⟨s.physicalReset, rfl, s.physicalReset_params, s.physicalReset_argBaud, s.physicalReset_argBytes,
    s.physicalReset_results, s.physicalReset_draws, s.physicalReset_schedule⟩

/-- Settles O60: each of the three conditions disables DRAIN. -/
theorem drainEventWithoutAStepChangesNothing : Obligations.DrainEventWithoutAStepChangesNothing := by
  refine fun now s hoff => drainStep_disabled (Bool.eq_false_iff.mpr fun he => ?_)
  obtain ⟨hf, hm, hrx⟩ := (drainEnabled_iff_ne_nil s).mp he
  obtain hf' | hm' | hrx' := hoff
  · exact hf' hf
  · exact hm' hm
  · exact hrx hrx'

/-- Settles O22: the record STAT delivers in every state. -/
theorem statAlwaysAnswers : Obligations.StatAlwaysAnswers :=
  fun s => ⟨statusRecord s, exec_stat s, fun hlevel => if_neg (Nat.not_lt.mpr hlevel)⟩

/-! ## The two stops -/

theorem exec_pop_stops {s : State} (hr : s.running) (h : popByte s = none) : exec .pop s = .fault .cellOutOfRange := by
  have ha : admission .pop s = .run := admission_ready hr.1 hr.2 nofun nofun
  rw [exec, execPop, perform_run ha, h]
  rfl

theorem exec_peek_stops {s : State} {off : Byte} (hr : s.running) (h : readCell s (peekIndex s off) = none) :
    exec (.peek off) s = .fault .cellOutOfRange := by
  have ha : admission (.peek off) s = .run := admission_ready hr.1 hr.2 nofun nofun
  rw [exec, execPeek, perform_run ha, h]
  rfl

theorem exec_parse_stops {s : State} (hr : s.running) (h : parseFrame s = none) :
    exec .parse s = .fault .cellOutOfRange := by
  have ha : admission .parse s = .run := admission_ready hr.1 hr.2 nofun nofun
  rw [exec, execParse, perform_run ha, h]
  rfl

theorem popByte_out_of_range {s : State} (hc : s.count ≠ 0) (hrd : s.params.capacity ≤ s.rd) : popByte s = none := by
  simp [popByte, hc, readCell_out_of_range (Nat.not_lt.mpr hrd)]

/-- A storage of no cells has none to read. -/
theorem readCell_of_capacity_zero {s : State} (h : s.params.capacity = 0) (i : Nat) : readCell s i = none :=
  readCell_out_of_range (by omega)

theorem parseFrame_of_capacity_zero {s : State} (h : s.params.capacity = 0) (hc : 2 ≤ s.count) :
    parseFrame s = none := by
  simp [parseFrame, Nat.not_lt.mpr hc, readCell_of_capacity_zero h]

theorem drainStep_stops {now : Millis} {s : State} {r : RxRecord} {rest : List RxRecord}
    (he : drainEnabled s = true) (hr : s.hwRx = r :: rest) (hc : s.count < s.params.capacity)
    (hclean : recordClean r = true) (hw : s.params.capacity ≤ s.wr) :
    drainStep now s = .fault .cellOutOfRange := by
  have hcell : writeCell (s.takeRecord rest) s.wr r.b = none := by simp [writeCell, Nat.not_lt.mpr hw]
  simp [drainStep, drainAppend, he, hr, bufferHasRoom, hc, hclean, hcell]

/-- Settles O8: the cell that does not exist in each operation that reads or writes one, and the port's width. -/
theorem stopsAreTheMissingCellAndThePortWidth : Obligations.StopsAreTheMissingCellAndThePortWidth := by
  refine fun s => ⟨fun hr hc hrd => exec_pop_stops hr (popByte_out_of_range hc hrd),
    fun hr hcap off => exec_peek_stops hr (readCell_of_capacity_zero hcap _),
    fun hr hcap hc => exec_parse_stops hr (parseFrame_of_capacity_zero hcap hc),
    fun r rest now hrun hr hc hfe hpe hw => ?drain, fun cw baud bytes hb => ?port⟩
  case drain =>
    have he : drainEnabled s = true := (drainEnabled_iff_ne_nil s).mpr ⟨hrun.1, hrun.2, by simp [hr]⟩
    exact drainStep_stops he hr hc ((recordClean_iff r).mpr ⟨hfe, hpe⟩) hw
  case port =>
    have hport : ¬ argBytesWellFormed bytes = true := fun hfits => absurd (of_decide_eq_true hfits) (Nat.not_le.mpr hb)
    exact if_neg hport

/-! ## PEEK's index, and the reads of an unset cell -/

theorem peekIndex_congr {s : State} {off off' : Byte}
    (h : off.toNat % s.params.capacity = off'.toNat % s.params.capacity) : peekIndex s off = peekIndex s off' := by
  rw [peekIndex, Nat.add_mod, h, ← Nat.add_mod, ← peekIndex]

/-- Settles O17: the offset enters by its cell alone; the checks do not read it. -/
theorem peekOffsetWrapsModuloCapacity : Obligations.PeekOffsetWrapsModuloCapacity := by
  intro s off off' h
  have hadm : admission (.peek off) s = admission (.peek off') s := by simp [admission]
  simp only [exec, execPeek, perform, hadm, peekIndex_congr h]

theorem popByte_of_unset {s : State} (hc : s.count ≠ 0) (hrd : s.rd < s.params.capacity)
    (h : s.q.read s.rd = none) : popByte s = some (Config.draw s.draws, false, s.countDraw.consumeOne) := by
  simp [popByte, hc, readCell_of_unset hrd h]

/-- The CTRL step of a PEEK that reads an unset cell takes one draw. -/
theorem agentStep_peek_unset {s : State} {off : Byte} (baud : Baud) (hr : s.running) (hcap : 0 < s.params.capacity)
    (h : s.q.read (peekIndex s off) = none) :
    agentStep (.ctrl (encode (.peek off)) baud []) s =
      .next ((s.present baud []).countDraw.deliver (.byte (Config.draw s.draws) false)) :=
  (ctrlStep_of_legal (Nat.zero_le _) (decode_encode _)).trans
    (exec_ready (s := s.present baud []) hr.1 hr.2 nofun nofun
      ⟨_, _, readCell_of_unset (peekIndex_lt (s := s.present baud []) off hcap) h, rfl⟩)

theorem runEvents_cons {e : Event} {es : List Event} {s t : State} (h : agentStep e s = .next t) :
    runEvents (e :: es) s = runEvents es t := by
  simp only [runEvents, h]

/-- Settles O18: the second PEEK finds the cell still unset and the count one higher. -/
theorem unsetCellReadsTakeFreshDraws : Obligations.UnsetCellReadsTakeFreshDraws := by
  refine ⟨fun s hr hc hrd h => exec_ready hr.1 hr.2 nofun nofun ⟨_, _, _, popByte_of_unset hc hrd h, rfl⟩,
    fun s off hr hcap h => ⟨?_, s.physicalReset, rfl, s.physicalReset_draws⟩⟩
  rw [runEvents_cons (agentStep_peek_unset 0#32 hr hcap h), runEvents_cons (agentStep_peek_unset 0#32 ?_ ?_ ?_)]
  · simp [runEvents, State.deliver, State.present, State.countDraw]
  · exact hr
  · exact hcap
  · exact h

end Sys2Proof.Machine
end

section
/-! PROOFS. The queue under the invariant (10_state.md R29, R40), and what PARSE makes of its bytes when they are
damaged (41_codec.md R171) or do not fit (00_scope.md R3). -/

namespace Sys2Proof.Machine

/-! ## First in, first out -/

theorem State.queue_getElem?_eq_some {s : State} {i : Nat} {c : Option Byte} (h : s.queue[i]? = some c) :
    i < s.count ∧ s.cellAhead i = c := by
  rw [State.queue_getElem?] at h
  split at h
  · exact ⟨‹_›, Option.some.inj h⟩
  · cases h

theorem popByte_of_queue {s : State} {b : Byte} {tail : List (Option Byte)} (hr : s.rd < s.params.capacity)
    (h : s.queue = some b :: tail) : popByte s = some (b, false, s.consumeOne) := by
  obtain ⟨hc, hb⟩ := State.queue_getElem?_eq_some (s := s) (i := 0) (c := some b) (by rw [h]; rfl)
  rw [State.cellAhead_zero hr] at hb
  exact popByte_of_set (Nat.ne_of_gt hc) hr hb

/-- Settles O58: the append, the pop, the look ahead and the flush, each on the list of buffered bytes. -/
theorem circularBufferIsAQueue : Obligations.CircularBufferIsAQueue := by
  refine fun s h hr => ⟨fun now b rest hrx hc => ?append, fun hq => ?popEmpty, fun b tail hq => ?pop,
    fun off b hb => ?peek, ⟨_, exec_ready hr.1 hr.2 nofun nofun rfl, rfl⟩, s.queue_length ▸ h.count_le,
    fun c hc => ?set⟩
  case append =>
    have he : drainEnabled s = true := (drainEnabled_iff_ne_nil s).mpr ⟨hr.1, hr.2, by simp [hrx]⟩
    exact ⟨_, drainStep_append he hrx hc rfl h.wr_lt,
      State.queue_appendByte (s := s.takeRecord rest) b now h.cursors hc⟩
  case popEmpty =>
    exact exec_ready hr.1 hr.2 nofun nofun ⟨_, _, _, popByte_empty (State.queue_eq_nil.mp hq), rfl⟩
  case pop =>
    refine ⟨_, exec_ready hr.1 hr.2 nofun nofun ⟨_, _, _, popByte_of_queue h.rd_lt hq, rfl⟩, ?_, rfl⟩
    exact s.queue_consumeOne.trans (congrArg List.tail hq)
  case peek =>
    obtain ⟨-, hcell⟩ := State.queue_getElem?_eq_some hb
    exact exec_ready hr.1 hr.2 nofun nofun ⟨_, _, readCell_of_set (peekIndex_lt off h.capacity_pos) hcell, rfl⟩
  case set =>
    obtain ⟨bs, hbs⟩ := h.queue_bytes
    obtain ⟨b, -, rfl⟩ := List.mem_map.mp (hbs ▸ hc)
    rfl

/-! ## A frame that fits -/

/-- PARSE delivers a packet only as its own effect. -/
theorem exec_parse_packet {s t : State} {p : Packet} (h : exec .parse s = .next t)
    (hres : t.results = s.results ++ [.packet p]) : ∃ u, parseFrame s = some (p, u) := by
  obtain ⟨-, rfl⟩ | ⟨code, -, rfl⟩ | ⟨-, p', u, hp, rfl⟩ := exec_cases h
  · simp at hres
  · simp at hres
  · obtain rfl : p' = p := by simpa [(parseFrame_poppedFrom hp).results_eq] using hres
    exact ⟨u, hp⟩

/-- Settles O34: a completed PARSE found a frame in the queue, whose length is the count. -/
theorem parseNeedsCapacityForTheFrame : Obligations.ParseNeedsCapacityForTheFrame := by
  intro s t p h hexec hres hp
  obtain ⟨u, hparse⟩ := exec_parse_packet hexec hres
  obtain ⟨bs, hq⟩ := h.queue_bytes
  by_cases hbs : IsFrame bs
  · obtain ⟨cmd, len, payload, rfl, hlen⟩ := hbs.exists_eq
    have hfits : payload.length + 2 ≤ s.params.capacity := (State.count_of_queue hq).symm.trans_le h.count_le
    exact ⟨by omega, len, State.cellAhead_of_queue hq (i := 1) (by simp), hlen.trans_le hfits⟩
  · cases (h.parseFrame_of_not_frame hq hbs).symm.trans hparse
    exact absurd rfl hp

/-! ## Flipped bits -/

@[simp] theorem flipBit_nil (j : Nat) (bs : List Byte) : flipBit j [] bs = bs := rfl

@[simp] theorem flipBit_cons (j i : Nat) (positions : List Nat) (bs : List Byte) :
    flipBit j (i :: positions) bs = flipBit j positions (bs.modify i (· ^^^ (1#8 <<< j))) := rfl

@[simp] theorem flipBit_length (j : Nat) (positions : List Nat) (bs : List Byte) :
    (flipBit j positions bs).length = bs.length := by
  induction positions generalizing bs with
  | nil => rfl
  | cons i positions ih => rw [flipBit_cons, ih, List.length_modify]

theorem flipBit_getElem?_of_notMem {j k : Nat} {positions : List Nat} (bs : List Byte) (hk : k ∉ positions) :
    (flipBit j positions bs)[k]? = bs[k]? := by
  induction positions generalizing bs with
  | nil => rfl
  | cons i positions ih =>
    obtain ⟨hki, hk⟩ := not_or.mp (mt List.mem_cons.mpr hk)
    rw [flipBit_cons, ih _ hk, List.getElem?_modify_ne _ _ (Ne.symm hki)]

/-- Flips of one bit cancel in pairs. -/
theorem xorAll_flipBit (j : Nat) {positions : List Nat} {bs : List Byte} (h : ∀ i ∈ positions, i < bs.length) :
    xorAll (flipBit j positions bs) = xorAll bs ^^^ (if Even positions.length then 0#8 else 1#8 <<< j) := by
  induction positions generalizing bs with
  | nil => simp
  | cons i positions ih =>
    obtain ⟨hi, hrest⟩ := List.forall_mem_cons.mp h
    rw [flipBit_cons, ih (by simpa using hrest), xorAll_modify bs i _ hi, List.length_cons,
      BitVec.xor_assoc]
    by_cases heven : Even positions.length <;> simp [heven, Nat.even_add_one]

/-- Bytes other than the length byte may change without the frame ceasing to be one. -/
theorem IsFrame.flipBit {bs : List Byte} (h : IsFrame bs) (j : Nat) {positions : List Nat} (hone : 1 ∉ positions) :
    IsFrame (Machine.flipBit j positions bs) := by
  rwa [IsFrame, flipBit_getElem?_of_notMem bs hone, flipBit_length]

theorem one_shiftLeft_ne_zero : ∀ j, j < 8 → 1#8 <<< j ≠ 0#8 := by decide

section
variable {s : State} {bs : List Byte} (h : s.Inv) (hr : s.running) (hq : s.queue = bs.map some)
include h hr hq

theorem exec_parse_ok (hbs : IsFrame bs) (hxor : xorAll bs = 0x00#8) :
    ∃ u f, exec .parse s = .next u ∧ u.results = s.results ++ [.packet (.ok f)] := by
  obtain ⟨cmd, len, payload, rfl, hlen⟩ := hbs.exists_eq
  exact ⟨_, _, exec_parse_of_frame h hr hq hlen, by rw [framePacket, if_pos hxor]⟩

theorem exec_parse_bad (hbs : IsFrame bs) (hxor : xorAll bs ≠ 0x00#8) :
    ∃ u f, exec .parse s = .next u ∧ u.results = s.results ++ [.packet (.bad f)] := by
  obtain ⟨cmd, len, payload, rfl, hlen⟩ := hbs.exists_eq
  exact ⟨_, _, exec_parse_of_frame h hr hq hlen, by rw [framePacket, if_neg hxor]⟩

/-- What PARSE accepts is a frame whose bytes XOR to zero (R169). -/
theorem isFrame_of_exec_parse_ok (hok : ∃ u f, exec .parse s = .next u ∧ u.results = s.results ++ [.packet (.ok f)]) :
    IsFrame bs ∧ xorAll bs = 0x00#8 := by
  obtain ⟨u, f, hexec, hres⟩ := hok
  by_cases hbs : IsFrame bs
  · refine ⟨hbs, by_contra fun hxor => ?_⟩
    obtain ⟨u', f', hexec', hres'⟩ := exec_parse_bad h hr hq hbs hxor
    cases hexec.symm.trans hexec'
    simp [hres'] at hres
  · cases hexec.symm.trans (exec_parse_of_not_frame h hr hq hbs)
    simp at hres

end

/-- Settles O32: flips keep the frame and change its XOR by the bit as often as they are odd; another length byte makes
the bytes no frame. -/
theorem singleFlipsAreDetectedEvenFlipsAreNot : Obligations.SingleFlipsAreDetectedEvenFlipsAreNot := by
  intro s t bs j hs hsr ht htr hq hj hok
  obtain ⟨hbs, hxor⟩ := isFrame_of_exec_parse_ok hs hsr hq hok
  refine ⟨fun i hi hne htq => ?single, fun positions _ hpos heven htq => ?even, fun len htq hlen => ?length⟩
  case single =>
    have hflip : xorAll (flipBit j [i] bs) = 1#8 <<< j := by
      rw [xorAll_flipBit j (by simpa using hi), hxor]
      simp
    exact exec_parse_bad ht htr htq (hbs.flipBit j (by simpa using Ne.symm hne))
      (hflip ▸ one_shiftLeft_ne_zero j hj)
  case even =>
    have hflip : xorAll (flipBit j positions bs) = 0x00#8 := by
      rw [xorAll_flipBit j fun i hi => (hpos i hi).1, hxor, if_pos heven, BitVec.xor_self]
    exact exec_parse_ok ht htr htq (hbs.flipBit j fun hone => (hpos 1 hone).2 rfl) hflip
  case length =>
    refine exec_parse_of_not_frame ht htr htq fun hframe => hlen ?_
    obtain ⟨cmd, len', payload, rfl, -⟩ := hbs.exists_eq
    rw [State.count_of_queue htq]
    exact (isFrame_cons_cons cmd len payload).mp hframe

end Sys2Proof.Machine
end

section
/-! PROOFS. Runs: a stuck parser (70_reset_and_hazards.md R242), an overflow (40_transport.md R116) and a fair DRAIN
(20_memory.md R74). -/

namespace Sys2Proof.Machine

/-! ## A stuck parser -/

/-- The head frame declares a length `len` that the count, which only DRAIN raises, can never meet (R242). -/
structure Stuck (len : Byte) (s : State) : Prop where
  two_le : 2 ≤ s.count
  lengthByte : s.cellAhead 1 = some len
  never : len.toNat ≤ 1 ∨ s.params.capacity < len.toNat ∨ len.toNat < s.count

theorem Stuck.count_ne {len : Byte} {s : State} (h : Stuck len s) (hinv : s.Inv) : s.count ≠ len.toNat := by
  obtain ⟨htwo, -, hnever⟩ := h
  have hle := hinv.count_le
  omega

/-- PARSE of a stuck queue finds no frame and writes nothing. -/
theorem Stuck.parseFrame {len : Byte} {s : State} (h : Stuck len s) (hinv : s.Inv) :
    Machine.parseFrame s = some (.incomplete, s) :=
  parseFrame_incomplete hinv.capacity_pos h.lengthByte (h.count_ne hinv)

/-- Being stuck is a matter of the storage, the read cursor, the count and the capacity. -/
theorem Stuck.congr {len : Byte} {s t : State} (h : Stuck len s) (hq : t.q = s.q) (hrd : t.rd = s.rd)
    (hcount : t.count = s.count) (hparams : t.params = s.params) : Stuck len t where
  two_le := hcount ▸ h.two_le
  lengthByte := by
    rw [← h.lengthByte, State.cellAhead, State.cellAhead, hq, hrd, hparams]
  never := by
    rw [hcount, hparams]
    exact h.never

theorem Stuck.appendByte {len : Byte} {s : State} (h : Stuck len s) (hinv : s.Inv)
    (hc : s.count < s.params.capacity) (b : Byte) (now : Millis) : Stuck len (s.appendByte b now) := by
  obtain ⟨htwo, hbyte, hnever⟩ := h
  refine ⟨Nat.le_succ_of_le htwo, ?_, hnever.imp_right (Or.imp_right Nat.lt_succ_of_lt)⟩
  rw [State.cellAhead_appendByte b now hinv.cursors hc (by omega), if_neg (by omega), hbyte]

theorem Stuck.drainStep {len : Byte} {now : Millis} {s t : State} (h : Stuck len s) (hinv : s.Inv)
    (hd : Machine.drainStep now s = .next t) : Stuck len t := by
  obtain ⟨-, rfl⟩ | ⟨r, rest, he, hr, ⟨hc, -, -, rfl⟩ | ⟨-, rfl⟩⟩ := drainStep_cases hd
  · exact h
  · have hm : s.mode ≠ .uninit := by simp [((drainEnabled_iff s).mp he).2.1]
    exact (h.congr rfl rfl rfl rfl : Stuck len (s.takeRecord rest)).appendByte (hinv.takeRecord hm hr) hc r.b now
  · exact h.congr rfl rfl rfl rfl

/-- Past UNINIT only POP and FLUSH move a stuck queue: INIT is not admitted and PARSE consumes nothing. -/
theorem Stuck.exec {len : Byte} {i : Instr} {s t : State} (h : Stuck len s) (hinv : s.Inv) (hm : s.mode ≠ .uninit)
    (hpop : i ≠ .pop) (hflush : i ≠ .flush) (he : Machine.exec i s = .next t) : Stuck len t := by
  have frame := exec_frame he
  obtain ⟨-, rfl⟩ | ⟨code, -, rfl⟩ | ⟨ha, heffect⟩ := exec_cases he
  · exact h.congr rfl rfl rfl rfl
  · exact h.congr rfl rfl rfl rfl
  have hinit : i ≠ .init := by
    rintro rfl
    have ⟨_, hu⟩ : s.fault = .noFault ∧ s.mode = .uninit := by simpa using admission_run_cases ha
    exact hm hu
  by_cases hparse : i = .parse
  · subst hparse
    obtain ⟨p, u, hp, rfl⟩ := heffect
    cases (h.parseFrame hinv).symm.trans hp
    exact h.congr rfl rfl rfl rfl
  · obtain ⟨hrd, hcount⟩ := frame.rd_count hinit hflush hpop hparse
    exact h.congr frame.q hrd hcount frame.params

theorem Stuck.agentStep {len : Byte} {e : Event} {s t : State} (h : Stuck len s) (hinv : s.Inv)
    (hm : s.mode ≠ .uninit) (hreset : e ≠ .reset)
    (hctrl : ∀ cw baud bytes, e = .ctrl cw baud bytes → decode cw ≠ .ok .pop ∧ decode cw ≠ .ok .flush)
    (hs : Machine.agentStep e s = .next t) : Stuck len t := by
  obtain ⟨r, -, rfl⟩ | ⟨now, -, hd⟩ | ⟨cw, baud, bytes, rfl, hc⟩ | ⟨he, -⟩ := agentStep_cases hs
  · obtain hl | ⟨-, -, -, hl⟩ | ⟨-, -, -, hl⟩ := lineStep_cases r s <;> rw [hl] <;> exact h.congr rfl rfl rfl rfl
  · exact h.drainStep hinv hd
  · have hpresented : Stuck len (s.present baud bytes) := h.congr rfl rfl rfl rfl
    obtain ⟨hb, ⟨i, hd, he⟩ | ⟨_, -, rfl⟩⟩ := ctrlStep_cases hc
    · obtain ⟨hpop, hflush⟩ := hctrl cw baud bytes rfl
      exact hpresented.exec (hinv.present baud hb) hm (fun hi => hpop (hi ▸ hd)) (fun hi => hflush (hi ▸ hd)) he
    · obtain ⟨fault, results, hill⟩ := illegalWord_eq (s.present baud bytes)
      rw [hill]
      exact hpresented.congr rfl rfl rfl rfl
  · exact absurd he hreset

/-- Only reset returns to UNINIT. -/
theorem agentStep_keeps_initialised {e : Event} {s t : State} (h : agentStep e s = .next t) (he : e ≠ .reset)
    (hm : s.mode ≠ .uninit) : t.mode ≠ .uninit := by
  obtain hs | ⟨_, _, -, hu, -⟩ | ⟨_, _, -, -, hoff⟩ | ⟨hreset, -⟩ := agentStep_device_cases h
  · rwa [State.mode_eq_of_device hs]
  · exact absurd hu hm
  · simp [(State.device_eq_deviceOff.mp hoff).1]
  · exact absurd hreset he

/-- Settles O33: the invariant, the mode and the stuck queue are kept along the run. -/
theorem stuckParserStaysStuck : Obligations.StuckParserStaysStuck := by
  intro s t len es hinv hr htwo hbyte hnever hreset hctrl hrun htr
  have hstart : s.Inv ∧ s.mode ≠ .uninit ∧ Stuck len s := ⟨hinv, by simp [hr.2], htwo, hbyte, hnever⟩
  have hend := runEvents_induction (fun u => u.Inv ∧ u.mode ≠ .uninit ∧ Stuck len u) ?step hstart hrun
  case step =>
    rintro e hmem u v ⟨huinv, hum, hu⟩ hstep
    have he : e ≠ .reset := ne_of_mem_of_not_mem hmem hreset
    exact ⟨huinv.agentStep hstep, agentStep_keeps_initialised hstep he hum,
      hu.agentStep huinv hum he (fun cw baud bytes heq => hctrl cw baud bytes (heq ▸ hmem)) hstep⟩
  obtain ⟨htinv, -, ht⟩ := hend
  exact exec_parse_of_parseFrame htr (ht.parseFrame htinv)

/-! ## Overflow -/

/-- A running block that holds no record: each arrival is drained before the next. -/
structure Drained (s : State) : Prop where
  inv : s.Inv
  running : s.running
  hwRx : s.hwRx = []

/-- In a drained block the receiver listens, no overrun is recorded and the peripheral has room. -/
theorem Drained.lineStep {s : State} (h : Drained s) (r : RxRecord) :
    agentStep (.line r) s = .next { s with hwRx := [r] } := by
  obtain ⟨hinv, ⟨hf, hm⟩, hrx⟩ := h
  have hl : lineListening s = true :=
    (lineListening_iff s).mpr ⟨hf, hm, hinv.module_iff.mpr hm, hinv.rx_iff.mpr hm⟩
  have hroom : s.hwRx.length ≠ s.params.hwRxDepth := by
    rw [hrx]
    exact Nat.ne_of_lt hinv.depth_pos
  have ho : s.oerr = false := Bool.eq_false_iff.mpr fun ho => hroom (hinv.oerr_full ho)
  have hhold := lineStep_hold r hl ho hroom
  rw [hrx] at hhold
  exact congrArg Host.Outcome.next hhold

/-- A clean byte delivered and drained is appended where there is room and lost where there is none (R116). -/
theorem Drained.arrival {s : State} (h : Drained s) (b : Byte) (now : Millis) :
    ∃ t, agentStep (.drain now) { s with hwRx := [⟨b, false, false⟩] } = .next t ∧ Drained t ∧
      t.params = s.params ∧ t.rd = s.rd ∧ t.results = s.results ∧
      ((s.count < s.params.capacity ∧ t.queue = s.queue ++ [some b]) ∨
        (s.params.capacity ≤ s.count ∧ t.queue = s.queue)) := by
  have hinv : State.Inv { s with hwRx := [⟨b, false, false⟩] } := h.inv.agentStep (h.lineStep _)
  have he : drainEnabled { s with hwRx := [⟨b, false, false⟩] } = true :=
    (drainEnabled_iff_ne_nil _).mpr ⟨h.running.1, h.running.2, nofun⟩
  by_cases hc : s.count < s.params.capacity
  · have hd := drainStep_append (now := now) he rfl hc rfl h.inv.wr_lt
    exact ⟨_, hd, ⟨hinv.drainStep hd, h.running, rfl⟩, rfl, rfl, rfl, .inl ⟨hc,
      State.queue_appendByte (s := State.takeRecord { s with hwRx := _ } []) b now h.inv.cursors hc⟩⟩
  · have hd := drainStep_drop (now := now) he rfl fun hkeep => hc hkeep.1
    exact ⟨_, hd, ⟨hinv.drainStep hd, h.running, rfl⟩, rfl, rfl, rfl, .inr ⟨Nat.not_lt.mp hc, rfl⟩⟩

/-- The queue after a list of arrivals. -/
theorem Drained.arrivals {s : State} (h : Drained s) (as : List (Byte × Millis)) :
    ∃ t, runEvents (as.flatMap fun a => [.line ⟨a.1, false, false⟩, .drain a.2]) s = some t ∧
      t.queue = s.queue ++ ((as.map Prod.fst).take (s.params.capacity - s.count)).map some ∧ t.rd = s.rd ∧
      t.results = s.results := by
  induction as generalizing s with
  | nil => exact ⟨s, rfl, by simp, rfl, rfl⟩
  | cons a as ih =>
    obtain ⟨t, hdrain, ht, hparams, hrd, hres, hqueue⟩ := h.arrival a.1 a.2
    obtain ⟨u, hrun, huq, hurd, hures⟩ := ih ht
    refine ⟨u, ?_, ?_, hurd.trans hrd, hures.trans hres⟩
    · rw [List.flatMap_cons, List.cons_append, runEvents_cons (h.lineStep _), List.cons_append,
        runEvents_cons hdrain]
      exact hrun
    · have hcount := t.queue_length
      obtain ⟨hc, hq⟩ | ⟨hc, hq⟩ := hqueue
      · have hroom : s.params.capacity - s.count = (s.params.capacity - t.count) + 1 := by
          rw [hq, List.length_append, State.queue_length, List.length_singleton] at hcount
          omega
        rw [huq, hq, hparams, hroom]
        simp
      · have hfull : s.params.capacity - s.count = 0 := by omega
        have hfull' : s.params.capacity - t.count = 0 := by rw [← hcount, hq, State.queue_length, hfull]
        rw [huq, hq, hparams, hfull, hfull']
        rfl

/-- Settles O38: the count is the length of the queue that the arrivals leave. -/
theorem overflowKeepsTheFirstBytes : Obligations.OverflowKeepsTheFirstBytes := by
  intro s arrivals hinv hr hrx
  obtain ⟨t, hrun, hq, hrd, hres⟩ := Drained.arrivals ⟨hinv, hr, hrx⟩ arrivals
  refine ⟨t, hrun, hq, ?_, hrd, hres⟩
  have hle := hinv.count_le
  rw [← t.queue_length, hq]
  simp only [List.length_append, State.queue_length, List.length_map, List.length_take]
  omega

/-! ## Fairness -/

/-- A held record leaves the peripheral by DRAIN and by reset only. -/
theorem agentStep_keeps_held {e : Event} {s t : State} (h : agentStep e s = .next t) (hdrain : ∀ now, e ≠ .drain now)
    (hreset : e ≠ .reset) (hrx : s.hwRx ≠ []) : t.hwRx ≠ [] := by
  obtain ⟨r, -, rfl⟩ | ⟨now, he, -⟩ | ⟨cw, baud, bytes, -, hc⟩ | ⟨he, -⟩ := agentStep_cases h
  · obtain hl | ⟨-, -, -, hl⟩ | ⟨-, -, -, hl⟩ := lineStep_cases r s <;> rw [hl]
    · exact hrx
    · exact hrx
    · exact List.append_ne_nil_of_left_ne_nil hrx _
  · exact absurd he (hdrain now)
  · rwa [ctrlStep_hwRx hc]
  · exact absurd he hreset

/-- Settles O39: were the record never read it would stay held, so DRAIN would stay enabled, and fairness reads it. -/
theorem fairDrainReadsAHeldRecord : Obligations.FairDrainReadsAHeldRecord := by
  intro events states n hrun hfair hrunning hrx
  by_contra hnever
  have henabled : ∀ m, n ≤ m → (states m).hwRx ≠ [] → drainEnabled (states m) = true := fun m hm hheld =>
    (drainEnabled_iff_ne_nil _).mpr ⟨(hrunning m hm).1, (hrunning m hm).2, hheld⟩
  have hno : ∀ m, n ≤ m → (states m).hwRx ≠ [] → ∀ now, events m ≠ .drain now := fun m hm hheld now he =>
    hnever ⟨m, now, hm, he, henabled m hm hheld⟩
  have hheld : ∀ m, n ≤ m → (states m).hwRx ≠ [] := by
    intro m hm
    induction m, hm using Nat.le_induction with
    | base => exact hrx
    | succ m hm ih =>
      have hreset : events m ≠ .reset := by
        intro he
        have hstep := hrun m
        rw [he] at hstep
        have hready := (hrunning (m + 1) (Nat.le_succ_of_le hm)).2
        rw [← Host.Outcome.next.inj hstep] at hready
        cases hready
      exact agentStep_keeps_held (hrun m) (hno m hm ih) hreset ih
  obtain ⟨m, hm, now, he⟩ := hfair n fun m hm => henabled m hm (hheld m hm)
  exact hno m hm (hheld m hm) now he

end Sys2Proof.Machine
end

section
/-! PROOFS. Transmission apart from reception (20_memory.md R73; 41_codec.md R182), and the two fields that STAT alone
reads (10_state.md R26, R31). -/

namespace Sys2Proof.Machine

/-! ## What SENDB and SEND transmit -/

/-- The checks read the fault, the mode and the payload presented, nothing else (R205). -/
theorem admission_congr (i : Instr) {s t : State} (hf : s.fault = t.fault) (hm : s.mode = t.mode)
    (hb : s.argBytes = t.argBytes) : admission i s = admission i t := by
  cases i <;> simp only [admission, frozen, hf, hm, hb]

/-- SENDB and SEND, the operations that transmit (R126, R180). -/
def Instr.transmits (i : Instr) : Prop := i = .sendb ∨ ∃ cmd, i = .send cmd

theorem Effect.eq_of_transmits {i : Instr} {s t : State} (hi : Instr.transmits i) (h : Effect i s t) :
    t = (s.transmit (sentBy s.argBytes i)).deliver .ack := by
  obtain rfl | ⟨cmd, rfl⟩ := hi <;> exact h

/-- Settles O26: what a SEND that raises nothing appends is its frame. -/
theorem transmittedFrameXorsToZero : Obligations.TransmittedFrameXorsToZero := by
  intro cmd s t h hf
  obtain ⟨ha, rfl⟩ | ⟨code, ha, rfl⟩ | ⟨-, he⟩ := exec_cases h
  · exact absurd hf (admission_refuse_frozen ha)
  · exact absurd hf (admission_raise_ne_noFault ha)
  · obtain rfl := he.eq_of_transmits (.inr ⟨cmd, rfl⟩)
    refine ⟨sendFrame cmd s.argBytes, rfl, ?_⟩
    rw [foldl_xor, xorAll_sendFrame, BitVec.xor_self]

/-- Settles O54: the two states are admitted alike and send the same bytes. -/
theorem transmissionReadsNoReceiveState : Obligations.TransmissionReadsNoReceiveState := by
  intro i s t s' t' hi hf hm hb hs ht
  have hadm : admission i s = admission i t := admission_congr i hf hm hb
  obtain ⟨ha, rfl⟩ | ⟨code, ha, rfl⟩ | ⟨ha, he⟩ := exec_cases hs
  · cases (exec_refuse (hadm.symm.trans ha)).symm.trans ht
    exact ⟨[], by simp, by simp, hf⟩
  · cases (exec_raise (hadm.symm.trans ha)).symm.trans ht
    exact ⟨[], by simp, by simp, rfl⟩
  · obtain rfl := he.eq_of_transmits hi
    obtain rfl := ((exec_run (hadm.symm.trans ha)).mp ht).eq_of_transmits hi
    exact ⟨sentBy s.argBytes i, rfl, by simp [hb], hf⟩

/-! ## DRAIN and a transmission commute -/

/-- The state after a CTRL step that transmits `sent` and acknowledges it. -/
def State.acknowledged (s : State) (baud : Baud) (bytes sent : List Byte) : State :=
  ((s.present baud bytes).transmit sent).deliver .ack

/-- DRAIN neither reads nor writes what a transmission writes. -/
theorem runEvents_drain_acknowledged (now : Millis) (s : State) (baud : Baud) (bytes sent : List Byte) :
    runEvents [.drain now] (s.acknowledged baud bytes sent) =
      (runEvents [.drain now] s).map (·.acknowledged baud bytes sent) := by
  simp only [runEvents, agentStep]
  cases he : drainEnabled s with
  | false => rw [drainStep_disabled he, drainStep_disabled (s := s.acknowledged baud bytes sent) he]; rfl
  | true =>
    obtain ⟨r, rest, hr⟩ := List.exists_cons_of_ne_nil ((drainEnabled_iff_ne_nil s).mp he).2.2
    by_cases hkeep : s.count < s.params.capacity ∧ recordClean r = true
    · obtain ⟨hc, hclean⟩ := hkeep
      by_cases hw : s.wr < s.params.capacity
      · rw [drainStep_append he hr hc hclean hw,
          drainStep_append (s := s.acknowledged baud bytes sent) he hr hc hclean hw]
        rfl
      · have hw := Nat.not_lt.mp hw
        rw [drainStep_stops he hr hc hclean hw,
          drainStep_stops (s := s.acknowledged baud bytes sent) he hr hc hclean hw]
        rfl
    · rw [drainStep_drop he hr hkeep, drainStep_drop (s := s.acknowledged baud bytes sent) he hr hkeep]
      rfl

section
variable {cw : Word} {baud : Baud} {bytes : List Byte} {i : Instr} {s : State}

theorem ctrlStep_overflow (hb : ¬ bytes.length ≤ maxArg) : ctrlStep cw baud bytes s = .fault .argPortOverflow := by
  simp [ctrlStep, argBytesWellFormed, hb]

/-- In a running block SENDB, or SEND of a payload that fits, transmits and acknowledges. -/
theorem ctrlStep_transmits (hb : bytes.length ≤ maxArg) (hd : decode cw = .ok i)
    (hi : i = .sendb ∨ (bytes.length ≤ maxPayload ∧ ∃ cmd, i = .send cmd)) (hr : s.running) :
    ctrlStep cw baud bytes s = .next (s.acknowledged baud bytes (sentBy bytes i)) := by
  rw [ctrlStep_of_legal hb hd]
  obtain rfl | ⟨hl, cmd, rfl⟩ := hi
  · exact exec_ready (s := s.present baud bytes) hr.1 hr.2 nofun nofun rfl
  · exact exec_send_ready cmd (s := s.present baud bytes) hr.1 hr.2 hl

/-- A block that is not running is not set running by SENDB or SEND. -/
theorem ctrlStep_not_running {t : State} (hd : decode cw = .ok i) (hi : Instr.transmits i) (hr : ¬ s.running)
    (h : ctrlStep cw baud bytes s = .next t) : ¬ t.running := by
  rintro ⟨htf, htm⟩
  obtain ⟨-, ⟨j, hj, he⟩ | ⟨_, hj, -⟩⟩ := ctrlStep_cases h <;> cases hd.symm.trans hj
  have hmode : t.mode = s.mode := by
    have hne : i ≠ .init ∧ i ≠ .tdown := by obtain rfl | ⟨cmd, rfl⟩ := hi <;> exact ⟨nofun, nofun⟩
    exact State.mode_eq_of_device ((exec_frame he).device hne.1 hne.2)
  by_cases hf : s.fault = .noFault
  · exact hr ⟨hf, hmode.symm.trans htm⟩
  · have hkept : t.fault = s.fault := agentStep_keeps_fault (e := .ctrl cw baud bytes) h nofun hf
    exact hf (hkept.symm.trans htf)

end

theorem drainEnabled_of_not_running {s : State} (h : ¬ s.running) : drainEnabled s = false := by
  refine Bool.eq_false_iff.mpr fun he => h ?_
  obtain ⟨hf, hm, -⟩ := (drainEnabled_iff s).mp he
  exact ⟨hf, hm⟩

theorem drainStep_running {now : Millis} {s t : State} (h : drainStep now s = .next t) (hr : s.running) :
    t.running := by
  obtain ⟨_, _, _, _, _, _, rfl⟩ := drainStep_receivedFrom h
  exact hr

theorem drainStep_of_not_running (now : Millis) {s : State} (hr : ¬ s.running) : agentStep (.drain now) s = .next s :=
  drainStep_disabled (drainEnabled_of_not_running hr)

/-- Settles O53: too many bytes stop both orders; a block that is not running has no DRAIN step in either; in a running
one the transmission is the same before and after DRAIN. -/
theorem drainAndSendCommute : Obligations.DrainAndSendCommute := by
  intro s now cw baud bytes i hd hi
  by_cases hb : bytes.length ≤ maxArg
  case neg =>
    have hstop : ∀ u, agentStep (.ctrl cw baud bytes) u = .fault .argPortOverflow := fun _ => ctrlStep_overflow hb
    cases hdrain : agentStep (.drain now) s <;> simp [runEvents, hdrain, hstop]
  by_cases hr : s.running
  · have hctrl : ∀ {u : State}, u.running → agentStep (.ctrl cw baud bytes) u =
        .next (u.acknowledged baud bytes (sentBy bytes i)) := fun hu => ctrlStep_transmits hb hd hi hu
    rw [runEvents_cons (hctrl hr), runEvents_drain_acknowledged]
    cases hdrain : agentStep (.drain now) s with
    | next t => simp [runEvents, hdrain, hctrl (drainStep_running hdrain hr)]
    | fault _ | refused _ => simp [runEvents, hdrain]
  · have htransmits : Instr.transmits i := hi.imp_right And.right
    rw [runEvents_cons (drainStep_of_not_running now hr)]
    cases hctrl : agentStep (.ctrl cw baud bytes) s with
    | next t =>
      have ht : ¬ t.running := ctrlStep_not_running hd htransmits hr hctrl
      simp [runEvents, hctrl, drainStep_of_not_running now ht]
    | fault _ | refused _ => simp [runEvents, hctrl]

/-! ## The divisor and the time stamp -/

/-- The state with another divisor and another time stamp. -/
def State.withStamp (s : State) (brg : BitVec 16) (time : Millis) : State := s.withUnread brg time s.txOut

/-- The two states differ at most in the divisor and the time stamp. -/
def State.EqButStamp (t u : State) : Prop := t = { u with brg := t.brg, lastRxMs := t.lastRxMs }

variable {brg : BitVec 16} {time : Millis}

theorem State.PoppedFrom.eqButStamp {s u : State} (h : s.PoppedFrom u) (r : Result) :
    (u.deliver r).EqButStamp ((u.withUnread brg time s.txOut).deliver r) := by
  obtain ⟨rd, count, draws, rfl⟩ := h
  rfl

/-- An admitted operation but STAT does the same whatever the two fields hold. -/
theorem Effect.withStamp {i : Instr} {s t : State} (h : Effect i s t) (hi : i ≠ .stat) :
    ∃ u, Effect i (s.withStamp brg time) u ∧ t.EqButStamp u := by
  cases i with
  | stat => exact absurd rfl hi
  | pop =>
    obtain ⟨b, e, u, hp, rfl⟩ := h
    refine ⟨_, ⟨b, e, u.withUnread brg time s.txOut, ?_, rfl⟩, (popByte_poppedFrom hp).eqButStamp _⟩
    rw [State.withStamp, popByte_withUnread, hp]
    rfl
  | peek off =>
    obtain ⟨b, u, hr, rfl⟩ := h
    refine ⟨_, ⟨b, u.withUnread brg time s.txOut, ?_, rfl⟩, (readCell_poppedFrom hr).eqButStamp _⟩
    rw [State.withStamp, readCell_withUnread]
    exact congrArg (Option.map _) hr
  | parse =>
    obtain ⟨p, u, hp, rfl⟩ := h
    refine ⟨_, ⟨p, u.withUnread brg time s.txOut, ?_, rfl⟩, (parseFrame_poppedFrom hp).eqButStamp _⟩
    rw [State.withStamp, parseFrame_withUnread, hp]
    rfl
  | init | tdown | flush | sendb | send cmd =>
    cases h
    exact ⟨_, rfl, rfl⟩

theorem exec_withStamp {i : Instr} {s t : State} (h : exec i s = .next t) (hi : i ≠ .stat) :
    ∃ u, exec i (s.withStamp brg time) = .next u ∧ t.EqButStamp u := by
  have hadm : admission i (s.withStamp brg time) = admission i s := admission_withUnread i s
  obtain ⟨ha, rfl⟩ | ⟨code, ha, rfl⟩ | ⟨ha, he⟩ := exec_cases h
  · exact ⟨_, exec_refuse (hadm.trans ha), rfl⟩
  · exact ⟨_, exec_raise (hadm.trans ha), rfl⟩
  · obtain ⟨u, hu, heq⟩ := he.withStamp hi
    exact ⟨u, (exec_run (hadm.trans ha)).mpr hu, heq⟩

theorem illegalWord_withStamp (s : State) :
    (illegalWord s).EqButStamp (illegalWord (s.withStamp brg time)) := by
  unfold illegalWord
  rw [show frozen (s.withStamp brg time) = frozen s from rfl]
  split <;> rfl

theorem lineStep_withStamp (r : RxRecord) (s : State) :
    (lineStep r s).EqButStamp (lineStep r (s.withStamp brg time)) := by
  unfold lineStep
  rw [show lineListening (s.withStamp brg time) = lineListening s from rfl,
    show (s.withStamp brg time).oerr = s.oerr from rfl,
    show peripheralFull (s.withStamp brg time) = peripheralFull s from rfl]
  split_ifs <;> rfl

theorem drainStep_withStamp {now : Millis} {s t : State} (h : drainStep now s = .next t) :
    ∃ u, drainStep now (s.withStamp brg time) = .next u ∧ t.EqButStamp u := by
  obtain ⟨he, rfl⟩ | ⟨r, rest, he, hr, ⟨hc, hclean, hw, rfl⟩ | ⟨hdrop, rfl⟩⟩ := drainStep_cases h
  · exact ⟨_, drainStep_disabled he, rfl⟩
  · exact ⟨_, drainStep_append (s := s.withStamp brg time) he hr hc hclean hw, rfl⟩
  · exact ⟨_, drainStep_drop (s := s.withStamp brg time) he hr hdrop, rfl⟩

/-- Settles O47: each agent's step on the two states; STAT's word is the only one that STAT has. -/
theorem onlyStatReadsTheDivisorAndTheTimestamp : Obligations.OnlyStatReadsTheDivisorAndTheTimestamp := by
  intro e s t brg time h hstat
  obtain ⟨r, rfl, rfl⟩ | ⟨now, rfl, hd⟩ | ⟨cw, baud, bytes, rfl, hc⟩ | ⟨rfl, rfl⟩ := agentStep_cases h
  · exact ⟨_, rfl, lineStep_withStamp r s⟩
  · exact drainStep_withStamp hd
  · obtain ⟨hb, ⟨i, hd, he⟩ | ⟨_, hd, rfl⟩⟩ := ctrlStep_cases hc
    · have hi : i ≠ .stat := by
        rintro rfl
        exact hstat baud bytes (by rw [eq_encode_of_decode hd]; rfl)
      obtain ⟨u, hu, heq⟩ := exec_withStamp he hi
      exact ⟨u, (ctrlStep_of_legal hb hd).trans hu, heq⟩
    · exact ⟨_, ctrlStep_of_illegal hb hd, illegalWord_withStamp (s.present baud bytes)⟩
  · exact ⟨_, rfl, rfl⟩

end Sys2Proof.Machine
end
